-- ==== Sys2Proof/Word.lean ====
section
/-! DEFINITION. The two word types of the block: a byte (one lane, the command word, STATUS, LEN) and a 64-bit register. -/

namespace Sys2Proof

/-- Eight bits: a byte lane of DIN or DOUT, a command word, STATUS, LEN (00_scope.md R2, R4). -/
abbrev Byte := BitVec 8

/-- Sixty-four bits: VAL, REF, RES, and DIN and DOUT moved as one register (00_scope.md R2). -/
abbrev Word := BitVec 64

end Sys2Proof
end

