-- ==== Sys2Proof/Syntax.lean ====
section
/-! DEFINITION. The six commands of the block, one constructor per row of spec/opcode_table.json. -/

namespace Sys2Proof

/-- The commands (00_scope.md R1, 30_encoding.md R46). A command carries no operand: "every operand is in a
register" (30_encoding.md R45). -/
inductive Instr where
  /-- VLEN, `encodedLength(value)` (40_varint.md R63). -/
  | vlen
  /-- VENC, `encode(value, out)` (40_varint.md R64). -/
  | venc
  /-- VENC0, `encodeZero(out)` (40_varint.md R65). -/
  | venc0
  /-- VDEC, `decode(in, remaining)` (40_varint.md R66). -/
  | vdec
  /-- PNENC, the packet-number `encode(pn, reference, out)` (41_packet_number.md R86). -/
  | pnenc
  /-- PNDEC, the packet-number `decode(in, length, reference)` (41_packet_number.md R87). -/
  | pndec
  deriving DecidableEq, Repr

end Sys2Proof
end

