-- ==== Sys2Proof/WellFormed.lean ====
section
/-! DEFINITION. Well-formedness. A command has no operand, so every `Instr` is well formed; what can be ill formed
is the command WORD the host writes, by either of the two fields of the format `CMD8` (30_encoding.md R45, R47). -/

namespace Sys2Proof

/-- Field `zero`, bits 7:3 of the command word (30_encoding.md R45). -/
def zeroField (w : Byte) : BitVec 5 := w.extractLsb' 3 5

/-- Field `op`, bits 2:0 of the command word (30_encoding.md R45). -/
def opField (w : Byte) : BitVec 3 := w.extractLsb' 0 3

/-- The `zero` field "must be `00000`" (30_encoding.md R45). -/
def zeroFieldOk (w : Byte) : Bool := zeroField w == 0

/-- `op = 0` and `op = 7` name no operation (30_encoding.md R47). -/
def opFieldOk (w : Byte) : Bool := opField w != 0 && opField w != 7

/-- A legal command word: both fields pass (30_encoding.md R45 to R47). -/
def wordWellFormed (w : Byte) : Bool := zeroFieldOk w && opFieldOk w

/-- Every command is well formed: it has no operand that could be out of range (30_encoding.md R45). -/
def Instr.wellFormed : Instr → Bool
  | .vlen | .venc | .venc0 | .vdec | .pnenc | .pndec => true

end Sys2Proof
end

