-- ==== Sys2Proof/Decode.lean ====
section
/-! DEFINITION. The decoder of command words, total on every byte and rejecting by name, and the encoder. -/

namespace Sys2Proof

/-- Why a byte is no command word (30_encoding.md R47). -/
inductive DecodeError where
  /-- A bit of the `zero` field (7:3) is set. -/
  | nonzeroHighBits
  /-- The `zero` field is clear and `op` is 0 or 7. -/
  | unassignedOp
  deriving DecidableEq, Repr

/-- One row of the opcode map: the command, and the mask and match value the whole word is compared with. -/
structure OpcodeRow where
  instr : Instr
  mask  : Byte
  value : Byte
  deriving DecidableEq, Repr

/-- The opcode map (30_encoding.md R46; spec/opcode_table.json). -/
def opcodeTable : List OpcodeRow :=
  [ ⟨.vlen,  0xff, 0x01⟩,
    ⟨.venc,  0xff, 0x02⟩,
    ⟨.venc0, 0xff, 0x03⟩,
    ⟨.vdec,  0xff, 0x04⟩,
    ⟨.pnenc, 0xff, 0x05⟩,
    ⟨.pndec, 0xff, 0x06⟩ ]

/-- "A decoder compares the whole 8-bit word (mask `0xff`) with the match value" (30_encoding.md R46); any other word
is illegal (R47). -/
def decode (w : Byte) : Except DecodeError Instr :=
  match opcodeTable.find? (fun r => w &&& r.mask == r.value) with
  | some r => .ok r.instr
  | none   => .error (if zeroFieldOk w then .unassignedOp else .nonzeroHighBits)

/-- The decoder over a byte stream: one command word is one byte (30_encoding.md R45), the rest is handed back;
`none` when there is no byte. -/
def decodeBytes : List Byte → Option (Except DecodeError (Instr × List Byte))
  | []      => none
  | w :: ws => some ((decode w).map fun i => (i, ws))

/-- The operation code of a command, field `op` of its word (30_encoding.md R45, R46). -/
def opCode : Instr → BitVec 3
  | .vlen  => 1
  | .venc  => 2
  | .venc0 => 3
  | .vdec  => 4
  | .pnenc => 5
  | .pndec => 6

/-- The command word: `zero` in bits 7:3 and `op` in bits 2:0 (30_encoding.md R45). -/
def encode (i : Instr) : Byte := (0 : BitVec 5) ++ opCode i

/-- The command that the decoder reads from a table row's bits. A command word is one byte, so the low `nbits` bits of
`w` must fit in one byte; bits above `nbits` are 0. -/
def decodeTableWord (nbits w : Nat) : Option Instr :=
  if w % 2 ^ nbits < 256 then (decode (BitVec.ofNat 8 (w % 2 ^ nbits))).toOption else none

end Sys2Proof
end

