-- ==== Sys2Proof/Config.lean ====
section
/-! DEFINITION. The block's fixed parameters (00_scope.md R2): "The block's parameters are fixed, none is left to
the model as an argument". No result of a command is left open; the one open parameter is the platform's `REG_MAP`. -/

namespace Sys2Proof.Config

/-- `VARINT_MAX` = 2^62 - 1, the largest varint value (00_scope.md R2, 40_varint.md R60). -/
def varintMax : Int := 4611686018427387903

/-- `PN_MAX` = 2^62 - 1, the largest packet number and the largest reference (00_scope.md R2, 41_packet_number.md R80). -/
def pnMax : Int := 2 ^ 62 - 1

/-- `NO_REF` = -1, "no prior packet in this space" (00_scope.md R2, 41_packet_number.md R80). -/
def noRef : Int := -1

/-- The lengths, in bytes, a truncated packet number may have (00_scope.md R2, 41_packet_number.md R81). -/
def pnLengths : List Nat := [1, 2, 3, 4]

/-- `REG_MAP`, the bus address of a register number: left open to the platform, and "no rule depends on it"
(20_memory.md R31; decision D2). It has no body, and nothing in the model reads it (log entry 6). -/
opaque regMap : Nat → Nat

end Sys2Proof.Config
end

