-- ==== Sys2Proof/Machine/State.lean ====
section
/-! DEFINITION. The state of the machine: the block's ten registers (10_state.md R11), and the host's side of the
register port (what the host will do next, and what its reads returned). Plain data throughout. -/

namespace Sys2Proof.Machine

/-- A register as the host addresses it (10_state.md R11): the eleven numbered registers, and the numbers above 10,
which are unassigned (10_state.md R24). `unassigned k` is register number `11 + k`. -/
inductive Reg where
  | cmd | status | val | ref | len | rem | din | dout | olen | consumed | res
  | unassigned (k : Nat)
  deriving DecidableEq, Repr

/-- The width of a register (10_state.md R11). A value exchanged with an unassigned number is given 64 bits: DESIGN
CHOICE, safe (log entry 5); nothing depends on it. -/
def Reg.width : Reg → Nat
  | .cmd => 8
  | .status => 8
  | .val => 64
  | .ref => 64
  | .len => 8
  | .rem => 16
  | .din => 64
  | .dout => 64
  | .olen => 4
  | .consumed => 4
  | .res => 64
  | .unassigned _ => 64

/-- What the host can do, one action at a time (10_state.md R10). A `HostWrite` supplies a value "of exactly the
register's width" (R23); issuing a command is a `HostWrite` to `CMD` (R12). -/
inductive HostAction where
  /-- `HostWrite(r, v)`. -/
  | write (r : Reg) (v : BitVec r.width)
  /-- `HostRead(r)`. -/
  | read (r : Reg)
  /-- The reset event (70_reset_and_hazards.md R120). -/
  | reset
  deriving DecidableEq, Repr

/-- What one `HostRead` returned to the host (10_state.md R23). -/
structure Reply where
  reg   : Reg
  value : BitVec reg.width
  deriving DecidableEq, Repr

/-- The state. The first ten fields are the block's whole architectural state (10_state.md R11); `CMD` stores nothing
(R12). The last two are the model's own: the host's coming actions, which are inputs of a run (R10, R28), and what
its reads returned, newest first (log entries 1 and 2). -/
structure State where
  status   : Byte
  val      : Word
  ref      : Word
  len      : Byte
  rem      : BitVec 16
  din      : Word
  dout     : Word
  olen     : BitVec 4
  consumed : BitVec 4
  res      : Word
  pending  : List HostAction
  reads    : List Reply
  deriving DecidableEq, Repr

/-- The block never stops: every error is an error completion after which it goes on (60_exceptions.md R100, R103,
R104). So no fault exists, and nothing raises one. -/
inductive Fault where
  deriving DecidableEq, Repr

/-- Why a command would have no meaning. -/
inductive Refusal where
  /-- The command has no meaning in the model yet. Only an arm of `exec` may raise it, and none does: every command
  of the opcode table is modelled. Safe. -/
  | notModelled (mnemonic : String)
  deriving DecidableEq, Repr

/-- The state right after reset: the reset column of the register table (10_state.md R11, R29;
70_reset_and_hazards.md R120). No host action is waiting and none has been answered (log entries 1 and 2). -/
def State.reset : State where
  status   := 0x00
  val      := 0
  ref      := 0xffffffffffffffff
  len      := 0
  rem      := 0
  din      := 0
  dout     := 0
  olen     := 0
  consumed := 0
  res      := 0
  pending  := []
  reads    := []

end Sys2Proof.Machine
end

