-- ==== Sys2Proof/Machine/Flags.lean ====
section
/-! DEFINITION. The completion codes and the layout of STATUS. There are no arithmetic flags (10_state.md R26): STATUS
is the only status a command leaves beside OLEN and CONSUMED. -/

namespace Sys2Proof.Machine

/-- The kinds of error a command can raise (00_scope.md section 5.3; 60_exceptions.md R101). -/
inductive ErrorKind where
  | truncated
  | invalidValue
  | valueTooLarge
  | nonMonotonic
  | invalidLength
  | illegalCommand
  deriving DecidableEq, Repr

/-- The number of a kind, field `ERR` (60_exceptions.md R101; decision D8). -/
def errNumber : ErrorKind → BitVec 4
  | .truncated      => 1
  | .invalidValue   => 2
  | .valueTooLarge  => 3
  | .nonMonotonic   => 4
  | .invalidLength  => 5
  | .illegalCommand => 6

/-- Whether a kind is of the taxonomy `PROTOCOL_VIOLATION`, field `PV` (10_state.md R13, 60_exceptions.md R100). -/
def protocolViolation : ErrorKind → Bool
  | .truncated      => true
  | .invalidValue   => false
  | .valueTooLarge  => false
  | .nonMonotonic   => false
  | .invalidLength  => false
  | .illegalCommand => false

/-- STATUS after a command that raised `k`: `PV` in bit 7, zeros in bits 6:4, `ERR` in bits 3:0 (10_state.md R13). -/
def statusOf (k : ErrorKind) : Byte :=
  BitVec.ofBool (protocolViolation k) ++ (0 : BitVec 3) ++ errNumber k

/-- STATUS after a command that succeeded (10_state.md R13, 60_exceptions.md R101). -/
def statusOk : Byte := 0x00

/-- Field `ERR` of STATUS, bits 3:0 (10_state.md R13). -/
def errField (status : Byte) : BitVec 4 := status.extractLsb' 0 4

/-- The reserved field of STATUS, bits 6:4 (10_state.md R13). -/
def reservedField (status : Byte) : BitVec 3 := status.extractLsb' 4 3

/-- Field `PV` of STATUS, bit 7 (10_state.md R13). -/
def pvField (status : Byte) : Bool := status.getLsbD 7

end Sys2Proof.Machine
end

