-- ==== Sys2Proof/Machine/Operands.lean ====
section
/-! DEFINITION. How operands are read out of registers and results put into them (00_scope.md section 5.1, R3;
30_encoding.md R50), and the checks of the operands' domains. All arithmetic is over Int or Nat (00_scope.md R3). -/

namespace Sys2Proof.Machine

/-- `s64(r)`, the two's-complement reading of a 64-bit register (00_scope.md section 5.1). -/
abbrev s64 (r : Word) : Int := r.toInt

/-- `u(r)`, the unsigned reading of a register (00_scope.md section 5.1). -/
abbrev u {n : Nat} (r : BitVec n) : Nat := r.toNat

/-- `zext_N(v)`, the N-bit register value whose unsigned reading is `v`; the rules use it only for
`0 <= v < 2^N` (00_scope.md section 5.1, R3). -/
def zext (n : Nat) (v : Int) : BitVec n := BitVec.ofInt n v

/-- A varint value offered to an encoder: legal, or the error it raises (40_varint.md R60). -/
def varintOperand (v : Int) : Except ErrorKind Nat :=
  if v < 0 then .error .invalidValue
  else if v > Config.varintMax then .error .valueTooLarge
  else .ok v.toNat

/-- A reference is -1 or a packet number (41_packet_number.md R80, R84). -/
def referenceLegal (ref : Int) : Bool := !(decide (ref < -1) || decide (ref > Config.pnMax))

/-- The smallest length of 1, 2, 3, 4 with property `p`, or `none` (00_scope.md section 5.3, "least L in S with P(L)"). -/
def leastLength (p : Nat → Bool) : Option Nat := Config.pnLengths.find? p

end Sys2Proof.Machine
end

