-- ==== Sys2Proof/Machine/Ops.lean ====
section
/-! DEFINITION. The shared operations: byte lanes of DIN and DOUT, the two ways a command completes (the error
completion is the block's exception entry), and the registers as the host reaches them. -/

namespace Sys2Proof.Machine

/-! ### Byte lanes (00_scope.md R4; 10_state.md R18, R19; 20_memory.md R32) -/

/-- Lane `i` of an 8-lane window is register bits `[63-8i : 56-8i]`, for `i` in 0..7 (10_state.md R18; log entry 11). -/
def lane (w : Word) (i : Nat) : Byte := w.extractLsb' (56 - 8 * i) 8

/-- The window with lane `i` replaced and every other lane kept. -/
def setLane (w : Word) (i : Nat) (b : Byte) : Word :=
  (w &&& ~~~((0xff : Word) <<< (56 - 8 * i))) ||| (b.setWidth 64 <<< (56 - 8 * i))

/-- Bits `[8m+7 : 8m]` of an unsigned integer (00_scope.md section 5.1). -/
def byteOf (v m : Nat) : Byte := BitVec.ofNat 8 (v / 2 ^ (8 * m))

/-- `MemRead(i, n)`: the big-endian reading of lanes `i .. i+n-1` of DIN (00_scope.md R4). -/
def memRead (din : Word) (i n : Nat) : Nat :=
  ((List.range n).map fun j => u (lane din (i + j)) * 2 ^ (8 * (n - 1 - j))).sum

/-- `MemWrite(i, n, v)`: DOUT with `DOUT[i+j] <- v[8(n-1-j)+7 : 8(n-1-j)]` for `j` in `0..n-1` and no other lane
written (00_scope.md R4). -/
def memWrite (dout : Word) (i n v : Nat) : Word :=
  (List.range n).foldl (fun d j => setLane d (i + j) (byteOf v (n - 1 - j))) dout

/-- A window given as bytes in wire order; "missing trailing lanes are zero" (30_encoding.md R52). -/
def windowOf (bytes : List Byte) : Word :=
  (List.range 8).foldl (fun d j => setLane d j (bytes.getD j 0)) 0

/-! ### Completion (60_exceptions.md R100, R103) -/

/-- Success: `STATUS <- 0x00` and the two lengths (60_exceptions.md R100; 10_state.md R20, R21). -/
def complete (olen consumed : Nat) (s : State) : State :=
  { s with status := statusOk, olen := zext 4 olen, consumed := zext 4 consumed }

/-- Error completion, the block's exception entry: `STATUS <- code(K)`, `OLEN <- 0`, `CONSUMED <- 0`, nothing else
(60_exceptions.md R103). Nothing is saved, so there is no return from it to model: "There is nothing to return from"
(60_exceptions.md R104). -/
def raise (k : ErrorKind) (s : State) : State :=
  { s with status := statusOf k, olen := 0, consumed := 0 }

/-! ### The registers as the host reaches them (10_state.md R11, R12, R23, R24) -/

/-- The number of a register, the host's handle for it (10_state.md R11). -/
def Reg.number : Reg → Nat
  | .cmd => 0
  | .status => 1
  | .val => 2
  | .ref => 3
  | .len => 4
  | .rem => 5
  | .din => 6
  | .dout => 7
  | .olen => 8
  | .consumed => 9
  | .res => 10
  | .unassigned k => k + 11

/-- The register a number names (10_state.md R11, R24). -/
def Reg.ofNumber : Nat → Reg
  | 0 => .cmd
  | 1 => .status
  | 2 => .val
  | 3 => .ref
  | 4 => .len
  | 5 => .rem
  | 6 => .din
  | 7 => .dout
  | 8 => .olen
  | 9 => .consumed
  | 10 => .res
  | k + 11 => .unassigned k

/-- `HostRead`: the whole register; `CMD` and unassigned numbers read 0 (10_state.md R12, R23, R24). -/
def readRegister : (r : Reg) → State → BitVec r.width
  | .cmd, _ => (0 : BitVec 8)
  | .status, s => s.status
  | .val, s => s.val
  | .ref, s => s.ref
  | .len, s => s.len
  | .rem, s => s.rem
  | .din, s => s.din
  | .dout, s => s.dout
  | .olen, s => s.olen
  | .consumed, s => s.consumed
  | .res, s => s.res
  | .unassigned _, _ => (0 : BitVec 64)

/-- What a `HostWrite` stores: the whole of a host-writable register (10_state.md R23). Read-only registers and
unassigned numbers ignore it (R24); `CMD` stores nothing (R12), its effect is `issueCommand`. -/
def storeRegister : (r : Reg) → BitVec r.width → State → State
  | .cmd, _, s => s
  | .status, _, s => s
  | .val, v, s => { s with val := v }
  | .ref, v, s => { s with ref := v }
  | .len, v, s => { s with len := v }
  | .rem, v, s => { s with rem := v }
  | .din, v, s => { s with din := v }
  | .dout, _, s => s
  | .olen, _, s => s
  | .consumed, _, s => s
  | .res, _, s => s
  | .unassigned _, _, s => s

/-- The reset event: every register takes its reset value (70_reset_and_hazards.md R120). The host's own side, its
coming actions and the answers it has had, is not the block's and stays (log entry 2). -/
def resetRegisters (s : State) : State :=
  { State.reset with pending := s.pending, reads := s.reads }

end Sys2Proof.Machine
end

