-- ==== Sys2Proof/Machine/PacketNumber.lean ====
section
/-! DEFINITION. The packet-number codec: PNENC, PNDEC (41_packet_number.md). -/

namespace Sys2Proof.Machine

/-- The length without a reference: the least `L` with `pn < 2^(8L) - 1` (41_packet_number.md R82). -/
def lengthNoReference (pn : Int) : Option Nat :=
  leastLength fun L => decide (pn < 2 ^ (8 * L) - 1)

/-- The length with a reference at distance `d`: the least `L` with `d < 2^(8L-1)` (41_packet_number.md R83). -/
def lengthForDistance (d : Int) : Option Nat :=
  leastLength fun L => decide (d < 2 ^ (8 * L - 1))

/-- A length that was found, or the error when no length fits (41_packet_number.md R82, R85). -/
def lengthOrTooLarge : Option Nat → Except ErrorKind Nat
  | none => .error .valueTooLarge
  | some L => .ok L

/-- The length PNENC chooses, or the error it raises, the tests in the order of 41_packet_number.md R86
(60_exceptions.md R105). -/
def pnencLength (pn ref : Int) : Except ErrorKind Nat :=
  if pn < 0 then .error .invalidValue
  else if !referenceLegal ref then .error .invalidValue
  else if pn > Config.pnMax then .error .valueTooLarge
  else if ref = Config.noRef then lengthOrTooLarge (lengthNoReference pn)
  else if pn ≤ ref then .error .nonMonotonic
  else lengthOrTooLarge (lengthForDistance (pn - ref))

/-- The truncated field `t = pn mod 2^(8L)` (41_packet_number.md R81). -/
def truncatedField (pn : Int) (L : Nat) : Nat := (pn % 2 ^ (8 * L)).toNat

/-- PNENC (41_packet_number.md R86). -/
def execPnenc (s : State) : Host.Outcome State Fault Refusal :=
  match pnencLength (s64 s.val) (s64 s.ref) with
  | .error k => .next (raise k s)
  | .ok L =>
    .next (complete L 0 { s with dout := memWrite s.dout 0 L (truncatedField (s64 s.val) L) })

/-- The reconstruction function, its three tests in order and over the integers (41_packet_number.md R88; 00_scope.md R3). -/
def reconstruct (t len : Nat) (ref : Int) : Int :=
  let expected : Int := ref + 1
  let win : Int := 2 ^ (8 * len)
  let hwin : Int := win / 2
  let candidate : Int := (expected - expected % win) + t
  if candidate ≤ expected - hwin ∧ candidate < 2 ^ 62 - win then candidate + win
  else if candidate > expected + hwin ∧ candidate ≥ win then candidate - win
  else candidate

/-- The packet number PNDEC recovers from the field `t`: the raw field without a reference, else the
reconstruction (41_packet_number.md R87). -/
def recovered (t len : Nat) (ref : Int) : Int :=
  if ref = Config.noRef then t else reconstruct t len ref

/-- PNDEC (41_packet_number.md R87): `LEN` is tested first (R89). -/
def execPndec (s : State) : Host.Outcome State Fault Refusal :=
  let len := u s.len
  if len ∉ Config.pnLengths then .next (raise .invalidLength s)
  else if !referenceLegal (s64 s.ref) then .next (raise .invalidValue s)
  else
    .next (complete 0 len { s with res := zext 64 (recovered (memRead s.din 0 len) len (s64 s.ref)) })

end Sys2Proof.Machine
end

