-- ==== Sys2Proof/Machine/VarInt.lean ====
section
/-! DEFINITION. The VarInt codec: VLEN, VENC, VENC0, VDEC (40_varint.md). -/

namespace Sys2Proof.Machine

/-- The length class `k` of a legal value: the least of 0, 1, 2, 3 with `v < 2^(8*2^k - 2)` (40_varint.md R61). -/
def lengthClass (v : Nat) : Nat :=
  if v ≤ 63 then 0 else if v ≤ 16383 then 1 else if v ≤ 1073741823 then 2 else 3

/-- `len(v)`, the encoded length (40_varint.md R61). -/
def encodedLength (v : Nat) : Nat := 2 ^ lengthClass v

/-- The wire integer `w = k * 2^(8L-2) + v` (40_varint.md R62, R64). -/
def varintField (v : Nat) : Nat := lengthClass v * 2 ^ (8 * encodedLength v - 2) + v

/-- The length that a varint's first byte announces, `2^(b0[7:6])` (40_varint.md R62, R66). -/
def announcedLength (b0 : Byte) : Nat := 2 ^ u (b0.extractLsb' 6 2)

/-- VLEN (40_varint.md R63). -/
def execVlen (s : State) : Host.Outcome State Fault Refusal :=
  match varintOperand (s64 s.val) with
  | .error k => .next (raise k s)
  | .ok v => .next (complete (encodedLength v) 0 s)

/-- VENC (40_varint.md R64). -/
def execVenc (s : State) : Host.Outcome State Fault Refusal :=
  match varintOperand (s64 s.val) with
  | .error k => .next (raise k s)
  | .ok v =>
    .next (complete (encodedLength v) 0
      { s with dout := memWrite s.dout 0 (encodedLength v) (varintField v) })

/-- VENC0 (40_varint.md R65). -/
def execVenc0 (s : State) : Host.Outcome State Fault Refusal :=
  .next (complete 1 0 { s with dout := memWrite s.dout 0 1 0 })

/-- VDEC (40_varint.md R66): the empty budget is tested before lane 0 is looked at (R69). -/
def execVdec (s : State) : Host.Outcome State Fault Refusal :=
  let r := u s.rem
  if r = 0 then .next (raise .truncated s)
  else
    let n := announcedLength (lane s.din 0)
    if r < n then .next (raise .truncated s)
    else
      .next (complete 0 n
        { s with
          res := zext 64 ((memRead s.din 0 n % 2 ^ (8 * n - 2) : Nat) : Int)
          rem := zext 16 ((r : Int) - n) })

end Sys2Proof.Machine
end

