-- ==== Sys2Proof/Machine/Dispatch.lean ====
section
/-! DEFINITION. One arm per command: its meaning (30_encoding.md R46). -/

namespace Sys2Proof.Machine

def exec (i : Instr) (s : State) : Host.Outcome State Fault Refusal :=
  match i with
  | .vlen => Sys2Proof.Machine.execVlen s
  | .venc => Sys2Proof.Machine.execVenc s
  | .venc0 => Sys2Proof.Machine.execVenc0 s
  | .vdec => Sys2Proof.Machine.execVdec s
  | .pnenc => Sys2Proof.Machine.execPnenc s
  | .pndec => Sys2Proof.Machine.execPndec s

end Sys2Proof.Machine
end

