-- ==== Sys2Proof/Machine/HostPort.lean ====
section
/-! DEFINITION. What each action of the host does (10_state.md R10), and the host notation's pseudo-instructions as
lists of actions (30_encoding.md R52, R53). -/

namespace Sys2Proof.Machine

/-- A write of `word` to `CMD` (10_state.md R12): the command it encodes is executed; an illegal word raises
`IllegalCommand` before any operand is looked at (30_encoding.md R47; 60_exceptions.md R105, R107). -/
def issueCommand (word : Byte) (s : State) : Host.Outcome State Fault Refusal :=
  match decode word with
  | .ok i => exec i s
  | .error _ => .next (raise .illegalCommand s)

/-- One action of the host, carried out to its end (10_state.md R10, R23; 20_memory.md R37). A read leaves every
register alone and hands its value to the host. -/
def perform : HostAction → State → Host.Outcome State Fault Refusal
  | .write .cmd word, s => issueCommand word s
  | .write r v, s => .next (storeRegister r v s)
  | .read r, s => .next { s with reads := ⟨r, readRegister r s⟩ :: s.reads }
  | .reset, s => .next (resetRegisters s)

/-- `cmd <MNEMONIC>`: a write of the command's word to `CMD` (30_encoding.md R52). -/
def cmd (i : Instr) : HostAction := .write .cmd (encode i)

/-- `vlen v` (30_encoding.md R53). -/
def pseudoVlen (v : Word) : List HostAction := [.write .val v, cmd .vlen]

/-- `venc v` (30_encoding.md R53). -/
def pseudoVenc (v : Word) : List HostAction := [.write .val v, cmd .venc]

/-- `venc0` (30_encoding.md R53). -/
def pseudoVenc0 : List HostAction := [cmd .venc0]

/-- `vdec bytes, r` (30_encoding.md R53). -/
def pseudoVdec (bytes : List Byte) (r : BitVec 16) : List HostAction :=
  [.write .din (windowOf bytes), .write .rem r, cmd .vdec]

/-- `pnenc pn, ref` (30_encoding.md R53). -/
def pseudoPnenc (pn ref : Word) : List HostAction := [.write .val pn, .write .ref ref, cmd .pnenc]

/-- `pndec bytes, len, ref` (30_encoding.md R53). -/
def pseudoPndec (bytes : List Byte) (len : Byte) (ref : Word) : List HostAction :=
  [.write .din (windowOf bytes), .write .len len, .write .ref ref, cmd .pndec]

end Sys2Proof.Machine
end

