-- ==== Sys2Proof/Machine/Step.lean ====
section
/-! DEFINITION. One step: the host's next action, carried out. -/

namespace Sys2Proof.Machine

/-- The next action of the host leaves the list and is carried out (10_state.md R10; 20_memory.md R37). With no action
waiting the block does nothing: it "takes no step on its own" (10_state.md R10; log entry 3). -/
def step (s : State) : Host.Outcome State Fault Refusal :=
  match s.pending with
  | [] => .next s
  | a :: rest => perform a { s with pending := rest }

/-- `s` with the write of the command word to `CMD` put before the host's other actions: the block has no program and
no fetch (10_state.md R25, 20_memory.md R39), "a command word is consumed by the write that delivers it". -/
def State.withFetchWord (s : State) (nbits w : Nat) : State :=
  { s with pending := .write .cmd (BitVec.ofNat 8 (w % 2 ^ nbits)) :: s.pending }

end Sys2Proof.Machine
end

