-- ==== Sys2Proof/Safety.lean ====
section
/-! DEFINITION. The terms claims are stated in: what a completed command leaves behind, and the invariant of the
result registers. -/

namespace Sys2Proof.Machine

/-- What an error leaves behind, with the STATUS value written out (60_exceptions.md R103). -/
abbrev failed (status : Byte) (s : State) : State :=
  { s with status := status, olen := 0, consumed := 0 }

/-- What a success leaves in the three registers every command writes (60_exceptions.md R100; 10_state.md R20, R21). -/
abbrev succeeded (olen consumed : BitVec 4) (s : State) : State :=
  { s with status := 0x00, olen := olen, consumed := consumed }

/-- The seven values STATUS takes (10_state.md R13). -/
def legalStatuses : List Byte := [0x00, 0x81, 0x02, 0x03, 0x04, 0x05, 0x06]

/-- The values OLEN and CONSUMED take (10_state.md R20, R21). -/
def legalLengths : List (BitVec 4) := [0, 1, 2, 3, 4, 8]

/-- What holds of the result registers between any two host actions (10_state.md R13, R20, R21, R22;
60_exceptions.md R103). The operand registers are the host's and may hold anything. -/
structure ResultInv (s : State) : Prop where
  /-- STATUS is one of its seven values (10_state.md R13). -/
  status_legal : s.status ∈ legalStatuses
  /-- `PV` is set exactly when `ERR` is 1, and bits 6:4 read 0 (10_state.md R13). -/
  status_fields : (pvField s.status = true ↔ errField s.status = 1) ∧ reservedField s.status = 0
  /-- After an error both lengths are 0 (60_exceptions.md R103). -/
  error_clears : s.status ≠ 0x00 → s.olen = 0 ∧ s.consumed = 0
  /-- OLEN holds 0 or a length an encode can report (10_state.md R20). -/
  olen_legal : s.olen ∈ legalLengths
  /-- CONSUMED holds 0 or a length a decode can report (10_state.md R21). -/
  consumed_legal : s.consumed ∈ legalLengths
  /-- At most one of the two lengths is nonzero (10_state.md R20, R21). -/
  one_length : s.olen = 0 ∨ s.consumed = 0
  /-- RES lies in `0 .. 2^62 + 2^31` (10_state.md R22, 41_packet_number.md R92). -/
  res_range : s.res.toNat ≤ 2 ^ 62 + 2 ^ 31

end Sys2Proof.Machine
end

