-- ==== Sys2Proof/Certificates/Slice0/Obligations.lean ====
section
/-! DEFINITION. The statements for the provers, grouped as the spec groups its rules. Each is about every state unless
its name says otherwise. `failed` and `succeeded` (Sys2Proof/Safety.lean) write out what an error completion and a success leave
in STATUS, OLEN and CONSUMED; an equation `exec i s = .next (succeeded o c { s with … })` is the whole next state, its frame included. -/

open Sys2Proof Sys2Proof.Machine

/-! ### Reset and one step -/

/-- R29 (decision D19): the reset event puts every register at the value of the reset column, from any state, and the
state the machine starts in holds the same values. -/
def Obligations.ResetRestoresEveryRegister : Prop :=
  (∀ s : State, ∃ t, perform .reset s = .next t ∧
    t.status = 0x00 ∧ t.val = 0 ∧ t.ref = 0xffffffffffffffff ∧ t.len = 0 ∧ t.rem = 0 ∧ t.din = 0 ∧ t.dout = 0 ∧
    t.olen = 0 ∧ t.consumed = 0 ∧ t.res = 0) ∧
  State.reset.status = 0x00 ∧ State.reset.val = 0 ∧ State.reset.ref = 0xffffffffffffffff ∧ State.reset.len = 0 ∧
  State.reset.rem = 0 ∧ State.reset.din = 0 ∧ State.reset.dout = 0 ∧ State.reset.olen = 0 ∧
  State.reset.consumed = 0 ∧ State.reset.res = 0

/-- 10_state.md section 1: the block takes no step on its own. That a step with no host action waiting answers the
same state is the model's choice (log entry 3). -/
def Obligations.IdleBlockDoesNothing : Prop :=
  ∀ s : State, s.pending = [] → step s = .next s

/-- Each step takes exactly one action off the host's list, no action adds one, only a read adds an answer, and no command
touches either list (both lists are the model's own, log entries 1 and 2): commands execute one at a time, in the order the
host issues them. -/
def Obligations.StepTakesExactlyOneAction : Prop :=
  (∀ (s t : State) (a : HostAction) (rest : List HostAction), s.pending = a :: rest → step s = .next t →
    t.pending = rest ∧
    t.reads = match a with
      | .read r => ⟨r, readRegister r s⟩ :: s.reads
      | .write _ _ => s.reads
      | .reset => s.reads) ∧
  (∀ (i : Instr) (s t : State), exec i s = .next t → t.pending = s.pending ∧ t.reads = s.reads)

/-- A step carries out the host's next action, and a step runs the decoded command: when that action writes a word to `CMD`
that decodes to `i`, the step is `exec i` with the action taken off the list; `withFetchWord` puts exactly such a write first.
The list is the model's form of the host's inputs (log entry 1). -/
def Obligations.StepRunsTheIssuedCommand : Prop :=
  (∀ (s : State) (a : HostAction) (rest : List HostAction),
    s.pending = a :: rest → step s = perform a { s with pending := rest }) ∧
  (∀ (s : State) (w : Byte) (i : Instr) (rest : List HostAction),
    s.pending = .write .cmd w :: rest → decode w = .ok i → step s = exec i { s with pending := rest }) ∧
  (∀ (s : State) (w : Nat) (i : Instr),
    decodeTableWord 8 w = some i → step (s.withFetchWord 8 w) = exec i s)

/-- R107 (decision D7): a word that is not one of the six, written to `CMD`, raises `IllegalCommand` by the error completion,
whatever the registers hold. -/
def Obligations.IllegalWordRaisesIllegalCommand : Prop :=
  ∀ (s : State) (w : Byte), w ∉ ([0x01, 0x02, 0x03, 0x04, 0x05, 0x06] : List Byte) →
    perform (.write .cmd w) s = .next (failed 0x06 s)

/-- R133 (decision D30): every command completes, an illegal word among them. -/
def Obligations.EveryCommandCompletes : Prop :=
  (∀ (i : Instr) (s : State), ∃ t, exec i s = .next t) ∧ (∀ (w : Byte) (s : State), ∃ t, issueCommand w s = .next t)

/-- The machine never stops: every step, from every state, answers a next state. A step with no host action waiting is the
model's own (log entry 3). -/
def Obligations.EveryStepAnswersAState : Prop :=
  ∀ s : State, ∃ t, step s = .next t

/-! ### Command words -/

/-- R46 (decision D6): the six words of the opcode map, and no other word, decode to the six commands. -/
def Obligations.DecoderFollowsTheOpcodeMap : Prop :=
  ∀ w : Byte,
    (decode w = .ok .vlen ↔ w = 0b00000001) ∧ (decode w = .ok .venc ↔ w = 0b00000010) ∧
    (decode w = .ok .venc0 ↔ w = 0b00000011) ∧ (decode w = .ok .vdec ↔ w = 0b00000100) ∧
    (decode w = .ok .pnenc ↔ w = 0b00000101) ∧ (decode w = .ok .pndec ↔ w = 0b00000110)

/-- Decoder and encoder are inverse to each other, in both directions, and a word decodes exactly when both of its
fields pass the checks of the format. -/
def Obligations.DecodeAndEncodeAgree : Prop :=
  (∀ (w : Byte) (i : Instr), decode w = .ok i ↔ encode i = w) ∧
  (∀ w : Byte, wordWellFormed w = true ↔ ∃ i, decode w = .ok i)

/-! ### The VarInt codec -/

/-- R63 (decision D27): VLEN reports the smallest class that covers the value and writes nothing else; outside the domain
it raises `InvalidValue` or `ValueTooLarge`. -/
def Obligations.VlenReportsTheSmallestClass : Prop :=
  ∀ s : State,
    (s.val.toInt < 0 → exec .vlen s = .next (failed 0x02 s)) ∧
    (s.val.toInt > 4611686018427387903 → exec .vlen s = .next (failed 0x03 s)) ∧
    (0 ≤ s.val.toInt → s.val.toInt ≤ 4611686018427387903 →
      ∃ k : Nat, k ≤ 3 ∧ s.val.toInt < 2 ^ (8 * 2 ^ k - 2) ∧ (∀ j < k, 2 ^ (8 * 2 ^ j - 2) ≤ s.val.toInt) ∧
        exec .vlen s = .next (succeeded (BitVec.ofNat 4 (2 ^ k)) 0 s))

/-- R64 (decision D22): VENC writes the varint's `L` bytes to lanes `0..L-1`, keeps the other lanes and changes nothing
else but the three registers every command writes. -/
def Obligations.VencWritesTheVarint : Prop :=
  ∀ s : State,
    (s.val.toInt < 0 → exec .venc s = .next (failed 0x02 s)) ∧
    (s.val.toInt > 4611686018427387903 → exec .venc s = .next (failed 0x03 s)) ∧
    (0 ≤ s.val.toInt → s.val.toInt ≤ 4611686018427387903 →
      ∃ (k : Nat) (d : Word),
        k ≤ 3 ∧ s.val.toInt < 2 ^ (8 * 2 ^ k - 2) ∧ (∀ j < k, 2 ^ (8 * 2 ^ j - 2) ≤ s.val.toInt) ∧
        (∀ j < 2 ^ k, ((lane d j).toNat : Int) =
          (k * 2 ^ (8 * 2 ^ k - 2) + s.val.toInt) / 2 ^ (8 * (2 ^ k - 1 - j)) % 256) ∧
        (∀ j, 2 ^ k ≤ j → j < 8 → lane d j = lane s.dout j) ∧
        exec .venc s = .next (succeeded (BitVec.ofNat 4 (2 ^ k)) 0 { s with dout := d }))

/-- R60: the two error conditions and the legal values in register terms, for both commands that take a varint value. -/
def Obligations.VarintDomainInRegisterBits : Prop :=
  ∀ s : State,
    (s.val.getLsbD 63 = true →
      exec .vlen s = .next (failed 0x02 s) ∧ exec .venc s = .next (failed 0x02 s)) ∧
    (s.val.getLsbD 63 = false → s.val.getLsbD 62 = true →
      exec .vlen s = .next (failed 0x03 s) ∧ exec .venc s = .next (failed 0x03 s)) ∧
    (s.val.getLsbD 63 = false → s.val.getLsbD 62 = false →
      ∃ t t', exec .vlen s = .next t ∧ t.status = 0x00 ∧ exec .venc s = .next t' ∧ t'.status = 0x00)

/-- The length VENC writes "always equals what VLEN gives for the same `VAL`" (40_varint.md, VENC), and the two commands end
in the same STATUS. -/
def Obligations.VencLengthIsVlenLength : Prop :=
  ∀ s t t' : State, exec .vlen s = .next t → exec .venc s = .next t' →
    t.status = t'.status ∧ t.olen = t'.olen ∧ t.dout = s.dout

/-- R65 (decision D28): VENC0 always succeeds, writes the byte 0x00 to lane 0 alone, and does to every register what VENC
does with `VAL = 0`, leaving VAL alone. -/
def Obligations.Venc0WritesTheZeroByte : Prop :=
  ∀ s : State,
    (∃ d : Word, lane d 0 = 0x00 ∧ (∀ j, 1 ≤ j → j < 8 → lane d j = lane s.dout j) ∧
      exec .venc0 s = .next (succeeded 1 0 { s with dout := d })) ∧
    (∀ t, exec .venc { s with val := 0 } = .next t → exec .venc0 s = .next { t with val := s.val })

/-- R66 (decisions D4, D9): VDEC raises `Truncated` exactly when the budget is below the announced length (an empty budget
always is), and otherwise writes RES, REM and CONSUMED. The value is the one of R62's table of first bytes, written lane by lane. -/
def Obligations.VdecDecodesEachClass : Prop :=
  ∀ (s : State) (b : Nat → Nat), (∀ j, b j = (lane s.din j).toNat) →
    (s.rem.toNat < 2 ^ (b 0 / 64) → exec .vdec s = .next (failed 0x81 s)) ∧
    (2 ^ (b 0 / 64) ≤ s.rem.toNat →
      exec .vdec s = .next (succeeded 0 (BitVec.ofNat 4 (2 ^ (b 0 / 64)))
        { s with
          rem := BitVec.ofNat 16 (s.rem.toNat - 2 ^ (b 0 / 64))
          res := BitVec.ofNat 64
            (if b 0 < 0x40 then b 0
             else if b 0 < 0x80 then (b 0 - 0x40) * 2 ^ 8 + b 1
             else if b 0 < 0xc0 then (b 0 - 0x80) * 2 ^ 24 + b 1 * 2 ^ 16 + b 2 * 2 ^ 8 + b 3
             else (b 0 - 0xc0) * 2 ^ 56 + b 1 * 2 ^ 48 + b 2 * 2 ^ 40 + b 3 * 2 ^ 32 + b 4 * 2 ^ 24 +
               b 5 * 2 ^ 16 + b 6 * 2 ^ 8 + b 7) }))

/-- R67 (decision D18): VDEC accepts every well-formed byte string, of every class that holds the value, not the smallest
class only. -/
def Obligations.VdecAcceptsEveryClass : Prop :=
  ∀ (s : State) (k v : Nat), k ≤ 3 → v < 2 ^ (8 * 2 ^ k - 2) → 2 ^ k ≤ s.rem.toNat →
    (∀ j < 2 ^ k, (lane s.din j).toNat =
      (k * 2 ^ (8 * 2 ^ k - 2) + v) / 2 ^ (8 * (2 ^ k - 1 - j)) % 256) →
    exec .vdec s = .next (succeeded 0 (BitVec.ofNat 4 (2 ^ k))
      { s with rem := BitVec.ofNat 16 (s.rem.toNat - 2 ^ k), res := BitVec.ofNat 64 v })

/-- 40_varint.md section 4 (derived there from VDEC's rule): VDEC depends on nothing of DIN when REM is 0, on lane 0 alone when
it fails otherwise, and on the announced lanes when it succeeds. -/
def Obligations.VdecDependsOnlyOnItsLanes : Prop :=
  ∀ (s t : State) (d : Word), exec .vdec s = .next t →
    (s.rem = 0 ∨
      (s.rem.toNat < 2 ^ ((lane s.din 0).toNat / 64) ∧ lane d 0 = lane s.din 0) ∨
      (∀ j < 2 ^ ((lane s.din 0).toNat / 64), lane d j = lane s.din j)) →
    exec .vdec { s with din := d } = .next { t with din := d }

/-- REM (10_state.md R17; decisions D3, D4): a successful VDEC charges the budget by the bytes it consumed, without wrapping; a
failing VDEC and every other command word leave REM alone. (A `HostWrite` to REM and the reset event do write it: R23, R120.) -/
def Obligations.VdecChargesTheBudget : Prop :=
  (∀ s t : State, exec .vdec s = .next t →
    t.consumed.toNat + t.rem.toNat = s.rem.toNat ∧ (t.status ≠ 0x00 → t.rem = s.rem)) ∧
  (∀ (w : Byte) (s t : State), w ≠ 0x04 → issueCommand w s = .next t → t.rem = s.rem)

/-- The varint round trip, for every legal value (40_varint.md section 4): VENC, its output offered to VDEC with any
sufficient budget, gives the value back. -/
def Obligations.VarintRoundTrip : Prop :=
  ∀ s : State, 0 ≤ s.val.toInt → s.val.toInt ≤ 4611686018427387903 →
    ∃ t, exec .venc s = .next t ∧ t.status = 0x00 ∧
      ∀ (r : BitVec 16) (d : Word), t.olen.toNat ≤ r.toNat →
        (∀ j < t.olen.toNat, lane d j = lane t.dout j) →
        exec .vdec { t with din := d, rem := r } =
          .next (succeeded 0 t.olen
            { t with din := d, rem := BitVec.ofNat 16 (r.toNat - t.olen.toNat), res := s.val })

/-- Prefix rejection (40_varint.md section 4): the bytes of a successful VENC with any budget below their number are
`Truncated`, and nothing but the three registers changes. -/
def Obligations.PrefixOfVarintIsTruncated : Prop :=
  ∀ (s t : State) (r : BitVec 16) (d : Word), exec .venc s = .next t → t.status = 0x00 →
    r.toNat < t.olen.toNat → (∀ j < r.toNat, lane d j = lane t.dout j) →
    exec .vdec { t with din := d, rem := r } = .next (failed 0x81 { t with din := d, rem := r })

/-! ### The packet-number codec -/

/-- R82: PNENC without a reference takes the least length with `pn < 2^(8L) - 1`, writes the low bytes of `pn`, and raises
`ValueTooLarge` when there is none. -/
def Obligations.PnencWithoutReference : Prop :=
  ∀ s : State, s.ref.toInt = -1 → 0 ≤ s.val.toInt → s.val.toInt ≤ 2 ^ 62 - 1 →
    (0xffffffff ≤ s.val.toInt → exec .pnenc s = .next (failed 0x03 s)) ∧
    (s.val.toInt < 0xffffffff →
      ∃ (L : Nat) (d : Word), 1 ≤ L ∧ L ≤ 4 ∧ s.val.toInt < 2 ^ (8 * L) - 1 ∧
        (∀ m, 1 ≤ m → m < L → 2 ^ (8 * m) - 1 ≤ s.val.toInt) ∧
        (∀ j < L, ((lane d j).toNat : Int) = s.val.toInt / 2 ^ (8 * (L - 1 - j)) % 256) ∧
        (∀ j, L ≤ j → j < 8 → lane d j = lane s.dout j) ∧
        exec .pnenc s = .next (succeeded (BitVec.ofNat 4 L) 0 { s with dout := d }))

/-- R83: PNENC with a reference wants `pn` above it (`NonMonotonic`) and takes the least length with
`pn - ref < 2^(8L-1)`. The kind of the error for a distance that fits no length is R85's own choice (decision D15). -/
def Obligations.PnencWithReference : Prop :=
  ∀ s : State, 0 ≤ s.ref.toInt → s.ref.toInt ≤ 2 ^ 62 - 1 → 0 ≤ s.val.toInt → s.val.toInt ≤ 2 ^ 62 - 1 →
    (s.val.toInt ≤ s.ref.toInt → exec .pnenc s = .next (failed 0x04 s)) ∧
    (2 ^ 31 ≤ s.val.toInt - s.ref.toInt → exec .pnenc s = .next (failed 0x03 s)) ∧
    (s.ref.toInt < s.val.toInt → s.val.toInt - s.ref.toInt < 2 ^ 31 →
      ∃ (L : Nat) (d : Word), 1 ≤ L ∧ L ≤ 4 ∧ s.val.toInt - s.ref.toInt < 2 ^ (8 * L - 1) ∧
        (∀ m, 1 ≤ m → m < L → 2 ^ (8 * m - 1) ≤ s.val.toInt - s.ref.toInt) ∧
        (∀ j < L, ((lane d j).toNat : Int) = s.val.toInt / 2 ^ (8 * (L - 1 - j)) % 256) ∧
        (∀ j, L ≤ j → j < 8 → lane d j = lane s.dout j) ∧
        exec .pnenc s = .next (succeeded (BitVec.ofNat 4 L) 0 { s with dout := d }))

/-- R84 (the spec's own decisions D12 to D14): the operands' domains are checked first, in the order of R105. -/
def Obligations.PacketNumberOperandDomains : Prop :=
  ∀ s : State,
    (s.val.toInt < 0 → exec .pnenc s = .next (failed 0x02 s)) ∧
    (s.ref.toInt < -1 ∨ 2 ^ 62 - 1 < s.ref.toInt → exec .pnenc s = .next (failed 0x02 s)) ∧
    (2 ^ 62 - 1 < s.val.toInt → -1 ≤ s.ref.toInt → s.ref.toInt ≤ 2 ^ 62 - 1 →
      exec .pnenc s = .next (failed 0x03 s)) ∧
    (1 ≤ s.len.toNat → s.len.toNat ≤ 4 → s.ref.toInt < -1 ∨ 2 ^ 62 - 1 < s.ref.toInt →
      exec .pndec s = .next (failed 0x02 s))

/-- Monotonicity is enforced on the encode side only and only against the reference supplied (41_packet_number.md
section 4): `NonMonotonic` needs a reference, and a success with one means `pn` is above it. -/
def Obligations.MonotonicAgainstTheReferenceOnly : Prop :=
  ∀ s t : State,
    (exec .pnenc s = .next t → (t.status = 0x04 → 0 ≤ s.ref.toInt ∧ s.val.toInt ≤ s.ref.toInt) ∧
      (t.status = 0x00 → s.ref.toInt < s.val.toInt)) ∧
    (exec .pndec s = .next t → t.status ≠ 0x04)

/-- The two length rules differ (41_packet_number.md section 4): 200 takes one byte without a reference and two with
reference 0. -/
def Obligations.TwoLengthRulesDiffer : Prop :=
  ∀ s : State, s.val = 200 →
    (s.ref = 0xffffffffffffffff → ∃ t, exec .pnenc s = .next t ∧ t.olen = 1 ∧ lane t.dout 0 = 0xc8) ∧
    (s.ref = 0 → ∃ t, exec .pnenc s = .next t ∧ t.olen = 2 ∧ lane t.dout 0 = 0x00 ∧ lane t.dout 1 = 0xc8)

/-- R89 (decision D25): PNDEC raises `InvalidLength` exactly when LEN is not 1, 2, 3 or 4, whatever REF and DIN hold. -/
def Obligations.PndecRejectsOtherLengths : Prop :=
  ∀ s : State,
    (s.len ∉ ([1, 2, 3, 4] : List Byte) → exec .pndec s = .next (failed 0x05 s)) ∧
    (s.len ∈ ([1, 2, 3, 4] : List Byte) → ∃ t, exec .pndec s = .next t ∧ t.status ≠ 0x05)

/-- R87, the branch without a reference: RES is the raw field, the top LEN bytes of DIN, and REM is not touched. -/
def Obligations.PndecWithoutReference : Prop :=
  ∀ s : State, s.ref.toInt = -1 → 1 ≤ s.len.toNat → s.len.toNat ≤ 4 →
    exec .pndec s = .next (succeeded 0 (BitVec.ofNat 4 s.len.toNat)
      { s with res := s.din >>> (64 - 8 * s.len.toNat) })

/-- R88: the document's reconstruction formula in its own bit operations (`expected & ~mask | truncatedValue`), the comparisons
over the integers, gives RES for every legal reference and length. -/
def Obligations.PndecReconstructs : Prop :=
  ∀ (s : State) (expected win mask field candidate : Word),
    0 ≤ s.ref.toInt → s.ref.toInt ≤ 2 ^ 62 - 1 → 1 ≤ s.len.toNat → s.len.toNat ≤ 4 →
    expected = s.ref + 1 → win = BitVec.ofNat 64 (2 ^ (8 * s.len.toNat)) → mask = win - 1 →
    field = s.din >>> (64 - 8 * s.len.toNat) → candidate = (expected &&& ~~~mask) ||| field →
    exec .pndec s = .next (succeeded 0 (BitVec.ofNat 4 s.len.toNat)
      { s with res :=
          if (candidate.toNat : Int) ≤ expected.toNat - win.toNat / 2 ∧ (candidate.toNat : Int) < 2 ^ 62 - win.toNat
            then candidate + win
          else if (candidate.toNat : Int) > expected.toNat + win.toNat / 2 ∧ candidate.toNat ≥ win.toNat
            then candidate - win
          else candidate })

/-- What the reconstruction is for (41_packet_number.md R88, 70_reset_and_hazards.md R129): every packet number in the half-open
window of half a window around `REF + 1` is recovered from its low LEN bytes. -/
def Obligations.PndecRecoversTheWindow : Prop :=
  ∀ (s : State) (x : Int), 0 ≤ s.ref.toInt → s.ref.toInt ≤ 2 ^ 62 - 1 → 1 ≤ s.len.toNat → s.len.toNat ≤ 4 →
    0 ≤ x → x ≤ 2 ^ 62 - 1 →
    s.ref.toInt + 1 - 2 ^ (8 * s.len.toNat - 1) < x → x ≤ s.ref.toInt + 1 + 2 ^ (8 * s.len.toNat - 1) →
    x % 2 ^ (8 * s.len.toNat) = (s.din >>> (64 - 8 * s.len.toNat)).toNat →
    exec .pndec s = .next (succeeded 0 (BitVec.ofNat 4 s.len.toNat) { s with res := BitVec.ofInt 64 x })

/-- The range of PNDEC's result (41_packet_number.md section 4; decision D24): below `2^(8*LEN)` without a reference; above
`2^62 - 1` only with `REF = 2^62 - 1`, where it is `2^62 + field` for the lower half of the window and below `2^62` for the
upper; never above `2^62 + 2^31`. -/
def Obligations.PndecResultRange : Prop :=
  ∀ (s t : State) (field : Nat), exec .pndec s = .next t → t.status = 0x00 →
    field = (s.din >>> (64 - 8 * s.len.toNat)).toNat →
    t.res.toNat ≤ 2 ^ 62 + 2 ^ 31 ∧
    (s.ref.toInt = -1 → t.res.toNat < 2 ^ (8 * s.len.toNat)) ∧
    (2 ^ 62 - 1 < t.res.toNat → s.ref.toInt = 2 ^ 62 - 1) ∧
    (s.ref.toInt = 2 ^ 62 - 1 →
      (field ≤ 2 ^ (8 * s.len.toNat - 1) → t.res.toNat = 2 ^ 62 + field) ∧
      (2 ^ (8 * s.len.toNat - 1) < field → t.res.toNat = 2 ^ 62 + field - 2 ^ (8 * s.len.toNat)))

/-- The no-reference branch agrees with the formula at `expected = 0` (41_packet_number.md section 4). -/
def Obligations.NoReferenceBranchAgreesWithFormula : Prop :=
  ∀ t len : Nat, 1 ≤ len → len ≤ 4 → t < 2 ^ (8 * len) → reconstruct t len (-1) = t

/-- The packet-number round trip (41_packet_number.md section 4), with and without a reference: whenever PNENC succeeds, PNDEC of
the bytes it wrote, with `LEN = OLEN` and the same REF, succeeds with the packet number. -/
def Obligations.PacketNumberRoundTrip : Prop :=
  ∀ (s t : State) (d : Word), exec .pnenc s = .next t → t.status = 0x00 →
    (∀ j < t.olen.toNat, lane d j = lane t.dout j) →
    exec .pndec { t with din := d, len := t.olen.setWidth 8 } =
      .next (succeeded 0 t.olen { t with din := d, len := t.olen.setWidth 8, res := s.val })

/-! ### Errors and completion -/

/-- R103 (decision D9): the error completion of a kind writes its code to STATUS (`PV` for `Truncated` only), zeroes both lengths
and writes nothing else; and that is all a command that ends in an error does, an illegal word among them. -/
def Obligations.ErrorCompletionWritesThreeRegisters : Prop :=
  (∀ (k : ErrorKind) (s : State), raise k s =
    failed (match k with
      | .truncated => 0x81
      | .invalidValue => 0x02
      | .valueTooLarge => 0x03
      | .nonMonotonic => 0x04
      | .invalidLength => 0x05
      | .illegalCommand => 0x06) s) ∧
  (∀ (w : Byte) (s t : State), issueCommand w s = .next t → t.status ≠ 0x00 → ∃ k, t = raise k s)

/-- The errors each command can raise, complete (60_exceptions.md section 1, derived there from the commands' rules). -/
def Obligations.ErrorsEachCommandCanRaise : Prop :=
  ∀ s t : State,
    (exec .vlen s = .next t → t.status ∈ ([0x00, 0x02, 0x03] : List Byte)) ∧
    (exec .venc s = .next t → t.status ∈ ([0x00, 0x02, 0x03] : List Byte)) ∧
    (exec .venc0 s = .next t → t.status = 0x00) ∧
    (exec .vdec s = .next t → t.status ∈ ([0x00, 0x81] : List Byte)) ∧
    (exec .pnenc s = .next t → t.status ∈ ([0x00, 0x02, 0x03, 0x04] : List Byte)) ∧
    (exec .pndec s = .next t → t.status ∈ ([0x00, 0x02, 0x05] : List Byte))

/-- STATUS (10_state.md R13; decisions D8, D10): every command, an illegal one among them, leaves one of the seven values in STATUS, with `PV` set
exactly when `ERR` is 1 and bits 6:4 zero; no host action but a command or reset changes it. -/
def Obligations.StatusLayout : Prop :=
  (∀ (w : Byte) (s t : State), issueCommand w s = .next t →
    t.status ∈ ([0x00, 0x81, 0x02, 0x03, 0x04, 0x05, 0x06] : List Byte) ∧
    (t.status.getLsbD 7 = true ↔ t.status.extractLsb' 0 4 = 1) ∧ t.status.extractLsb' 4 3 = 0) ∧
  (∀ (r : Reg) (v : BitVec r.width) (s t : State), r ≠ .cmd → perform (.write r v) s = .next t → t.status = s.status) ∧
  (∀ (r : Reg) (s t : State), perform (.read r) s = .next t → t.status = s.status)

/-- R104 (decision D10): a failed command leaves no trace: whatever the host issues next is executed as if the failed command
had never been issued. -/
def Obligations.FailedCommandLeavesNoTrace : Prop :=
  ∀ (w w' : Byte) (s t : State), issueCommand w s = .next t → t.status ≠ 0x00 →
    issueCommand w' t = issueCommand w' s

/-- R93: no command writes REF; and the frame of the other registers, for every command: VAL, LEN and DIN are never written,
REM only by VDEC, DOUT only by the encodes, RES only by the decodes. -/
def Obligations.CommandsNeverWriteTheirOperands : Prop :=
  ∀ (i : Instr) (s t : State), exec i s = .next t →
    t.ref = s.ref ∧ t.val = s.val ∧ t.len = s.len ∧ t.din = s.din ∧
    (i ≠ .vdec → t.rem = s.rem) ∧
    (i ≠ .venc → i ≠ .venc0 → i ≠ .pnenc → t.dout = s.dout) ∧
    (i ≠ .vdec → i ≠ .pndec → t.res = s.res)

/-- DOUT (10_state.md R19; decisions D4, D5, D22), for every command word: lanes of DOUT at and above OLEN keep their values (all eight after
an error or a decode, where OLEN is 0); and lane `i` is bits `[63-8i : 56-8i]`. -/
def Obligations.LanesBeyondTheLengthAreKept : Prop :=
  (∀ (w : Byte) (s t : State), issueCommand w s = .next t →
    (∀ j, t.olen.toNat ≤ j → j < 8 → lane t.dout j = lane s.dout j) ∧
    (t.status ≠ 0x00 → t.dout = s.dout) ∧ (w = 0x04 ∨ w = 0x06 → t.dout = s.dout)) ∧
  (∀ (d : Word) (i : Nat), i ≤ 7 → (lane d i).toNat = d.toNat / 2 ^ (56 - 8 * i) % 256)

/-- R27: no hidden state. A command's outcome is a function of the registers its rule reads (VLEN and VENC: VAL; VENC0: none;
VDEC: DIN, REM; PNENC: VAL, REF; PNDEC: DIN, LEN, REF), and of nothing else: two states that agree on these end with the same
STATUS and lengths and the same written results. -/
def Obligations.OutcomeDependsOnTheOperandsOnly : Prop :=
  ∀ (i : Instr) (s s' t t' : State),
    (match i with
      | .vlen => s.val = s'.val
      | .venc => s.val = s'.val
      | .venc0 => True
      | .vdec => s.din = s'.din ∧ s.rem = s'.rem
      | .pnenc => s.val = s'.val ∧ s.ref = s'.ref
      | .pndec => s.din = s'.din ∧ s.len = s'.len ∧ s.ref = s'.ref) →
    exec i s = .next t → exec i s' = .next t' →
    t.status = t'.status ∧ t.olen = t'.olen ∧ t.consumed = t'.consumed ∧
    (i = .vdec → t.rem = t'.rem) ∧
    (i = .vdec ∨ i = .pndec → t.status = 0x00 → t.res = t'.res) ∧
    (i = .venc ∨ i = .venc0 ∨ i = .pnenc → ∀ j < t.olen.toNat, lane t.dout j = lane t'.dout j)

/-- The outcome of each command issued first after reset (70_reset_and_hazards.md section 1, derived there). -/
def Obligations.FirstCommandAfterReset : Prop :=
  exec .vlen State.reset = .next { State.reset with olen := 1 } ∧
  exec .venc State.reset = .next { State.reset with olen := 1 } ∧
  exec .venc0 State.reset = .next { State.reset with olen := 1 } ∧
  exec .vdec State.reset = .next { State.reset with status := 0x81 } ∧
  exec .pnenc State.reset = .next { State.reset with olen := 1 } ∧
  exec .pndec State.reset = .next { State.reset with status := 0x05 }

/-! ### The host's side -/

/-- R23 (decisions D2, D21): a `HostWrite` replaces the whole register and nothing else; a `HostRead` returns the whole register
and changes no register (its answer goes to `reads`, the model's own field, log entry 2). -/
def Obligations.HostAccessIsWholeRegister : Prop :=
  ∀ s : State,
    (∀ v, perform (.write .val v) s = .next { s with val := v }) ∧
    (∀ v, perform (.write .ref v) s = .next { s with ref := v }) ∧
    (∀ v, perform (.write .len v) s = .next { s with len := v }) ∧
    (∀ v, perform (.write .rem v) s = .next { s with rem := v }) ∧
    (∀ v, perform (.write .din v) s = .next { s with din := v }) ∧
    (∀ r, ∃ t, perform (.read r) s = .next t ∧ { t with reads := s.reads } = s) ∧
    readRegister .status s = s.status ∧ readRegister .val s = s.val ∧ readRegister .ref s = s.ref ∧
    readRegister .len s = s.len ∧ readRegister .rem s = s.rem ∧ readRegister .din s = s.din ∧
    readRegister .dout s = s.dout ∧ readRegister .olen s = s.olen ∧
    readRegister .consumed s = s.consumed ∧ readRegister .res s = s.res

/-- R24 (decision D21): writes to the read-only registers and to numbers above 10 are ignored, and a number above 10 reads 0;
and `CMD` reads 0 (10_state.md R12). -/
def Obligations.OtherHostAccessesAreIgnored : Prop :=
  ∀ (s : State) (n : Nat),
    (n = 1 ∨ n = 7 ∨ n = 8 ∨ n = 9 ∨ n = 10 ∨ 10 < n →
      ∀ v, perform (.write (Reg.ofNumber n) v) s = .next s) ∧
    (n = 0 ∨ 10 < n → (readRegister (Reg.ofNumber n) s).toNat = 0)

/-- The register numbers of the table (10_state.md R11) and the numbers above 10 name the registers one to one. -/
def Obligations.RegisterNumbersAreHandles : Prop :=
  [Reg.cmd, .status, .val, .ref, .len, .rem, .din, .dout, .olen, .consumed, .res].map Reg.number = List.range 11 ∧
  (∀ n, (Reg.ofNumber n).number = n) ∧ (∀ r, Reg.ofNumber r.number = r)

/-- The order of the operand writes among themselves is free (70_reset_and_hazards.md R122, 30_encoding.md R53): host writes to
two different registers, neither of them `CMD`, give the same state in either order. A write to `CMD` issues a command (10_state.md
R12), so it is left out of the first clause; the second is about what a write stores, and there `CMD` stores nothing. -/
def Obligations.HostWritesCommute : Prop :=
  (∀ (r r' : Reg) (v : BitVec r.width) (v' : BitVec r'.width) (s : State), r ≠ .cmd → r' ≠ .cmd → r ≠ r' →
    ∃ t t' u, perform (.write r v) s = .next t ∧ perform (.write r' v') t = .next u ∧
      perform (.write r' v') s = .next t' ∧ perform (.write r v) t' = .next u) ∧
  (∀ (r r' : Reg) (v : BitVec r.width) (v' : BitVec r'.width) (s : State), r ≠ r' →
    storeRegister r v (storeRegister r' v' s) = storeRegister r' v' (storeRegister r v s))

/-- 30_encoding.md R53 (decision D23): each pseudo-instruction, run as its list of host actions (the model's list, log entry 1),
is the command on the operands it was given; a DIN value written as bytes fills the lanes in wire order, missing lanes
zero (R52). -/
def Obligations.PseudoInstructionsRunTheirCommand : Prop :=
  ∀ (s : State) (rest : List HostAction) (v ref : Word) (bytes : List Byte) (r : BitVec 16) (len : Byte) (d : Word),
    (∀ j < 8, lane d j = bytes.getD j 0) →
    (s.pending = pseudoVlen v ++ rest → core.run 2 s = exec .vlen { s with val := v, pending := rest }) ∧
    (s.pending = pseudoVenc v ++ rest → core.run 2 s = exec .venc { s with val := v, pending := rest }) ∧
    (s.pending = pseudoVenc0 ++ rest → core.run 1 s = exec .venc0 { s with pending := rest }) ∧
    (s.pending = pseudoVdec bytes r ++ rest →
      core.run 3 s = exec .vdec { s with din := d, rem := r, pending := rest }) ∧
    (s.pending = pseudoPnenc v ref ++ rest →
      core.run 3 s = exec .pnenc { s with val := v, ref := ref, pending := rest }) ∧
    (s.pending = pseudoPndec bytes len ref ++ rest →
      core.run 4 s = exec .pndec { s with din := d, len := len, ref := ref, pending := rest })

/-- `MemRead` on a window (00_scope.md R4, 10_state.md R18, 20_memory.md R32): the first `n` lanes are the top `8n` bits of the
64-bit register, so all eight lanes read as the register. -/
def Obligations.WindowReadsBigEndian : Prop :=
  ∀ (w : Word) (n : Nat), n ≤ 8 →
    memRead w 0 n = w.toNat / 2 ^ (64 - 8 * n) ∧ memRead w 0 8 = w.toNat

/-! ### The invariant of the result registers -/

/-- Every step keeps the invariant `ResultInv`: STATUS takes its seven values only with its fields as laid out; an error leaves both
lengths 0; the lengths are ones a command can report, at most one of them nonzero; RES stays in `0 .. 2^62 + 2^31`. -/
def Obligations.StepKeepsTheResultInvariant : Prop :=
  ∀ s t : State, ResultInv s → step s = .next t → ResultInv t

/-- The invariant holds right after reset. -/
def Obligations.ResetMeetsTheResultInvariant : Prop := ResultInv State.reset
end

