-- ==== Sys2Proof/Laws/Decode.lean ====
section
/-! SUPPORT. The opcode table names no word twice. -/

namespace Sys2Proof

/-- No word matches two rows of the opcode map (30_encoding.md R46). -/
theorem opcodeTable_disjoint :
    opcodeTable.Pairwise fun a b => ¬ ∃ w : Byte, w &&& a.mask = a.value ∧ w &&& b.mask = b.value := by
  decide

/-- The decoder of bytes takes one byte and hands the rest back (30_encoding.md R45). -/
theorem decodeBytes_cons_ok {w : Byte} {ws : List Byte} {i : Instr} (h : decode w = .ok i) :
    decodeBytes (w :: ws) = some (.ok (i, ws)) := by
  simp [decodeBytes, h, Except.map]

end Sys2Proof
end

