-- ==== Sys2Proof/Laws/Operands.lean ====
section
/-! SUPPORT. What the operand checks and the length choices answer. -/

namespace Sys2Proof.Machine

@[simp] theorem zext_natCast (n k : Nat) : zext n (k : Int) = BitVec.ofNat n k := by
  simp [zext]

/-- The unsigned reading of `zext`, under the side condition the rules guarantee (00_scope.md R3). -/
theorem zext_toNat (n : Nat) (v : Int) (h0 : 0 ≤ v) (h1 : v < 2 ^ n) : ((zext n v).toNat : Int) = v := by
  obtain ⟨k, rfl⟩ := Int.eq_ofNat_of_zero_le h0
  have : k < 2 ^ n := by exact_mod_cast h1
  simp [Nat.mod_eq_of_lt this]

/-! ### Domains -/

theorem varintOperand_eq_ok {v : Int} {n : Nat} :
    varintOperand v = .ok n ↔ 0 ≤ v ∧ v ≤ 4611686018427387903 ∧ v = n := by
  unfold varintOperand Config.varintMax
  split
  · simp; omega
  · split
    · simp; omega
    · simp; omega

theorem varintOperand_eq_error {v : Int} {k : ErrorKind} :
    varintOperand v = .error k ↔
      (v < 0 ∧ k = .invalidValue) ∨ (4611686018427387903 < v ∧ k = .valueTooLarge) := by
  unfold varintOperand Config.varintMax
  split
  · cases k <;> simp <;> omega
  · split
    · cases k <;> simp <;> omega
    · simp; omega

theorem referenceLegal_iff (r : Int) : referenceLegal r = true ↔ -1 ≤ r ∧ r ≤ 2 ^ 62 - 1 := by
  simp [referenceLegal, Config.pnMax]

/-! ### Lengths -/

/-- `leastLength` finds the least of the four lengths with the property. -/
theorem leastLength_eq_some {p : Nat → Bool} {L : Nat} :
    leastLength p = some L ↔ 1 ≤ L ∧ L ≤ 4 ∧ p L = true ∧ ∀ m, 1 ≤ m → m < L → p m = false := by
  have h : ∀ a b c d : Bool, p 1 = a → p 2 = b → p 3 = c → p 4 = d → (leastLength p = some L ↔
      1 ≤ L ∧ L ≤ 4 ∧ p L = true ∧ ∀ m, 1 ≤ m → m < L → p m = false) := by
    intro a b c d h1 h2 h3 h4
    constructor
    · intro h
      simp only [leastLength, Config.pnLengths, List.find?, h1, h2, h3, h4] at h
      cases a <;> cases b <;> cases c <;> cases d <;> simp at h <;> subst h <;>
        refine ⟨by omega, by omega, by assumption, fun m hm hl => ?_⟩ <;> interval_cases m <;> assumption
    · rintro ⟨hl, hu, hp, hm⟩
      simp only [leastLength, Config.pnLengths, List.find?]
      interval_cases L <;> simp_all
  exact h _ _ _ _ rfl rfl rfl rfl

theorem leastLength_eq_none {p : Nat → Bool} :
    leastLength p = none ↔ ∀ m, 1 ≤ m → m ≤ 4 → p m = false := by
  simp only [leastLength, Config.pnLengths, List.find?_eq_none]
  constructor
  · intro h m h1 h4
    have := h m (by interval_cases m <;> simp)
    simpa using this
  · intro h m hm
    have : 1 ≤ m ∧ m ≤ 4 := by simp at hm; omega
    simp [h m this.1 this.2]

/-- The class of a legal value is at most 3, its payload holds the value, and no smaller class does (40_varint.md R61). -/
theorem lengthClass_spec (v : Nat) (h : v < 2 ^ 62) :
    lengthClass v ≤ 3 ∧ v < 2 ^ (8 * encodedLength v - 2) ∧
      ∀ j < lengthClass v, 2 ^ (8 * 2 ^ j - 2) ≤ v := by
  unfold encodedLength lengthClass
  split
  · exact ⟨by omega, by norm_num; omega, by omega⟩
  · split
    · refine ⟨by omega, by norm_num; omega, fun j hj => ?_⟩
      interval_cases j
      norm_num
      omega
    · split
      · refine ⟨by omega, by norm_num; omega, fun j hj => ?_⟩
        interval_cases j <;> norm_num <;> omega
      · refine ⟨by omega, by norm_num; omega, fun j hj => ?_⟩
        interval_cases j <;> norm_num <;> omega

/-- A varint is 1, 2, 4 or 8 bytes (40_varint.md R61). -/
theorem encodedLength_mem (v : Nat) : encodedLength v ∈ [1, 2, 4, 8] := by
  unfold encodedLength lengthClass
  split_ifs <;> simp

/-- The wire integer fits its bytes: `0 <= w < 2^(8L)` (40_varint.md R64). -/
theorem varintField_lt (v : Nat) (h : v < 2 ^ 62) : varintField v < 2 ^ (8 * encodedLength v) := by
  obtain ⟨h1, h2, -⟩ := lengthClass_spec v h
  unfold varintField
  have h3 : 2 ≤ 8 * encodedLength v := by
    have := Nat.one_le_two_pow (n := lengthClass v)
    unfold encodedLength
    omega
  have h4 : 2 ^ (8 * encodedLength v) = 4 * 2 ^ (8 * encodedLength v - 2) := by
    rw [show 8 * encodedLength v = 2 + (8 * encodedLength v - 2) by omega, pow_add]
    simp
  have : lengthClass v * 2 ^ (8 * encodedLength v - 2) ≤ 3 * 2 ^ (8 * encodedLength v - 2) :=
    Nat.mul_le_mul_right _ h1
  omega

/-- A first byte announces 1, 2, 4 or 8 bytes (40_varint.md R62). -/
theorem announcedLength_mem (b : Byte) : announcedLength b ∈ [1, 2, 4, 8] := by
  have h : u (b.extractLsb' 6 2) < 4 := (b.extractLsb' 6 2).isLt
  unfold announcedLength
  interval_cases u (b.extractLsb' 6 2) <;> simp

/-- The announced length from the byte's value (40_varint.md R62). -/
theorem announcedLength_eq (b : Byte) : announcedLength b = 2 ^ (b.toNat / 64) := by
  unfold announcedLength
  congr 1
  have := b.isLt
  simp only [BitVec.extractLsb'_toNat, Nat.shiftRight_eq_div_pow]
  omega

/-! ### The packet-number length -/

/-- PNENC's choice for legal operands without a reference (41_packet_number.md R82). -/
theorem pnencLength_noReference {pn : Int} (h0 : 0 ≤ pn) (h1 : pn ≤ 2 ^ 62 - 1) :
    pnencLength pn (-1) = lengthOrTooLarge (lengthNoReference pn) := by
  unfold pnencLength
  rw [if_neg (by omega), (referenceLegal_iff (-1)).2 (by omega), if_neg (by simp),
    if_neg (by unfold Config.pnMax; omega), if_pos (by rfl)]

/-- PNENC's choice for legal operands with a reference (41_packet_number.md R83). -/
theorem pnencLength_reference {pn ref : Int} (h0 : 0 ≤ pn) (h1 : pn ≤ 2 ^ 62 - 1) (h2 : 0 ≤ ref)
    (h3 : ref ≤ 2 ^ 62 - 1) :
    pnencLength pn ref =
      if pn ≤ ref then .error .nonMonotonic else lengthOrTooLarge (lengthForDistance (pn - ref)) := by
  unfold pnencLength
  rw [if_neg (by omega), (referenceLegal_iff ref).2 (by omega), if_neg (by simp),
    if_neg (by unfold Config.pnMax; omega), if_neg (by unfold Config.noRef; omega)]

/-- When PNENC finds a length, the operands are in their domains and the length is the least its rule allows
(41_packet_number.md R82, R83, R86). -/
theorem pnencLength_eq_ok {pn ref : Int} {L : Nat} (h : pnencLength pn ref = .ok L) :
    0 ≤ pn ∧ pn ≤ 2 ^ 62 - 1 ∧ -1 ≤ ref ∧ ref ≤ 2 ^ 62 - 1 ∧ 1 ≤ L ∧ L ≤ 4 ∧
      ((ref = -1 ∧ pn < 2 ^ (8 * L) - 1) ∨ (0 ≤ ref ∧ ref < pn ∧ pn - ref < 2 ^ (8 * L - 1))) := by
  unfold pnencLength at h
  split at h
  · cases h
  · split at h
    · cases h
    · rename_i h0 hr
      have hr' := (referenceLegal_iff ref).1 (by simpa using hr)
      split at h
      · cases h
      · rename_i hmax
        unfold Config.pnMax at hmax
        split at h
        · rename_i href
          unfold Config.noRef at href
          cases hL : lengthNoReference pn with
          | none => rw [hL] at h; cases h
          | some L' =>
            rw [hL] at h
            cases h
            obtain ⟨l1, l2, l3, -⟩ := leastLength_eq_some.1 hL
            exact ⟨by omega, by omega, hr'.1, hr'.2, l1, l2, .inl ⟨href, by simpa using l3⟩⟩
        · rename_i href
          unfold Config.noRef at href
          split at h
          · cases h
          · cases hL : lengthForDistance (pn - ref) with
            | none => rw [hL] at h; cases h
            | some L' =>
              rw [hL] at h
              cases h
              obtain ⟨l1, l2, l3, -⟩ := leastLength_eq_some.1 hL
              exact ⟨by omega, by omega, hr'.1, hr'.2, l1, l2,
                .inr ⟨by omega, by omega, by simpa using l3⟩⟩

/-- PNENC raises only these three kinds (60_exceptions.md R102). -/
theorem pnencLength_eq_error {pn ref : Int} {k : ErrorKind} (h : pnencLength pn ref = .error k) :
    k = .invalidValue ∨ k = .valueTooLarge ∨ k = .nonMonotonic := by
  unfold pnencLength at h
  have hL : ∀ o : Option Nat, lengthOrTooLarge o = .error k → k = .valueTooLarge := by
    rintro (_ | L) h <;> cases h
    rfl
  split_ifs at h <;> first | (cases h; simp) | (have := hL _ h; simp [this])

/-- The truncated field fits its bytes (41_packet_number.md R81). -/
theorem truncatedField_lt (pn : Int) (L : Nat) : truncatedField pn L < 2 ^ (8 * L) := by
  unfold truncatedField
  have h : (0 : Int) < 2 ^ (8 * L) := by positivity
  have h1 := Int.emod_nonneg pn (ne_of_gt h)
  have h2 := Int.emod_lt_of_pos pn h
  have h3 : ((2 ^ (8 * L) : Nat) : Int) = 2 ^ (8 * L) := by push_cast; rfl
  omega

end Sys2Proof.Machine
end

