-- ==== Sys2Proof/Laws/State.lean ====
section
/-! SUPPORT. One lemma per field per shared update of the state, so that no later proof unfolds the update. -/

namespace Sys2Proof.Machine

/-! ### `complete`: a command that succeeded writes STATUS, OLEN, CONSUMED (60_exceptions.md R100) -/

@[simp] theorem complete_status (o c : Nat) (s : State) : (complete o c s).status = statusOk := rfl
@[simp] theorem complete_val (o c : Nat) (s : State) : (complete o c s).val = s.val := rfl
@[simp] theorem complete_ref (o c : Nat) (s : State) : (complete o c s).ref = s.ref := rfl
@[simp] theorem complete_len (o c : Nat) (s : State) : (complete o c s).len = s.len := rfl
@[simp] theorem complete_rem (o c : Nat) (s : State) : (complete o c s).rem = s.rem := rfl
@[simp] theorem complete_din (o c : Nat) (s : State) : (complete o c s).din = s.din := rfl
@[simp] theorem complete_dout (o c : Nat) (s : State) : (complete o c s).dout = s.dout := rfl
@[simp] theorem complete_olen (o c : Nat) (s : State) : (complete o c s).olen = zext 4 o := rfl
@[simp] theorem complete_consumed (o c : Nat) (s : State) : (complete o c s).consumed = zext 4 c := rfl
@[simp] theorem complete_res (o c : Nat) (s : State) : (complete o c s).res = s.res := rfl
@[simp] theorem complete_pending (o c : Nat) (s : State) : (complete o c s).pending = s.pending := rfl
@[simp] theorem complete_reads (o c : Nat) (s : State) : (complete o c s).reads = s.reads := rfl

/-! ### `raise`: the error completion (60_exceptions.md R103) -/

@[simp] theorem raise_status (k : ErrorKind) (s : State) : (raise k s).status = statusOf k := rfl
@[simp] theorem raise_val (k : ErrorKind) (s : State) : (raise k s).val = s.val := rfl
@[simp] theorem raise_ref (k : ErrorKind) (s : State) : (raise k s).ref = s.ref := rfl
@[simp] theorem raise_len (k : ErrorKind) (s : State) : (raise k s).len = s.len := rfl
@[simp] theorem raise_rem (k : ErrorKind) (s : State) : (raise k s).rem = s.rem := rfl
@[simp] theorem raise_din (k : ErrorKind) (s : State) : (raise k s).din = s.din := rfl
@[simp] theorem raise_dout (k : ErrorKind) (s : State) : (raise k s).dout = s.dout := rfl
@[simp] theorem raise_olen (k : ErrorKind) (s : State) : (raise k s).olen = 0 := rfl
@[simp] theorem raise_consumed (k : ErrorKind) (s : State) : (raise k s).consumed = 0 := rfl
@[simp] theorem raise_res (k : ErrorKind) (s : State) : (raise k s).res = s.res := rfl
@[simp] theorem raise_pending (k : ErrorKind) (s : State) : (raise k s).pending = s.pending := rfl
@[simp] theorem raise_reads (k : ErrorKind) (s : State) : (raise k s).reads = s.reads := rfl

/-! ### `resetRegisters`: every register to its reset value (70_reset_and_hazards.md R120) -/

@[simp] theorem resetRegisters_status (s : State) : (resetRegisters s).status = State.reset.status := rfl
@[simp] theorem resetRegisters_val (s : State) : (resetRegisters s).val = State.reset.val := rfl
@[simp] theorem resetRegisters_ref (s : State) : (resetRegisters s).ref = State.reset.ref := rfl
@[simp] theorem resetRegisters_len (s : State) : (resetRegisters s).len = State.reset.len := rfl
@[simp] theorem resetRegisters_rem (s : State) : (resetRegisters s).rem = State.reset.rem := rfl
@[simp] theorem resetRegisters_din (s : State) : (resetRegisters s).din = State.reset.din := rfl
@[simp] theorem resetRegisters_dout (s : State) : (resetRegisters s).dout = State.reset.dout := rfl
@[simp] theorem resetRegisters_olen (s : State) : (resetRegisters s).olen = State.reset.olen := rfl
@[simp] theorem resetRegisters_consumed (s : State) : (resetRegisters s).consumed = State.reset.consumed := rfl
@[simp] theorem resetRegisters_res (s : State) : (resetRegisters s).res = State.reset.res := rfl
@[simp] theorem resetRegisters_pending (s : State) : (resetRegisters s).pending = s.pending := rfl
@[simp] theorem resetRegisters_reads (s : State) : (resetRegisters s).reads = s.reads := rfl

/-! ### The host's own side of the port under a register write (10_state.md R23, R24) -/

@[simp] theorem storeRegister_pending (r : Reg) (v : BitVec r.width) (s : State) :
    (storeRegister r v s).pending = s.pending := by
  cases r <;> rfl

@[simp] theorem storeRegister_reads (r : Reg) (v : BitVec r.width) (s : State) :
    (storeRegister r v s).reads = s.reads := by
  cases r <;> rfl

end Sys2Proof.Machine
end

