-- ==== Sys2Proof/Laws/Exec.lean ====
section
/-! SUPPORT. Once for each command: everything it can do. Later proofs cite these instead of unfolding the meanings. -/

namespace Sys2Proof.Machine

/-- `complete` with the values of the three registers written out. -/
theorem complete_eq_succeeded (o c : Nat) (s : State) :
    complete o c s = succeeded (BitVec.ofNat 4 o) (BitVec.ofNat 4 c) s := by
  simp [complete, succeeded, statusOk]

/-- `raise` with the STATUS value written out. -/
theorem raise_eq_failed (k : ErrorKind) (s : State) : raise k s = failed (statusOf k) s := rfl

/-- VLEN raises what its operand's check raises, or reports the length (40_varint.md R63). -/
theorem exec_vlen_cases {s t : State} (h : exec .vlen s = .next t) :
    (∃ k, varintOperand s.val.toInt = .error k ∧ t = raise k s) ∨
    (∃ v, varintOperand s.val.toInt = .ok v ∧ t = complete (encodedLength v) 0 s) := by
  simp only [exec, execVlen] at h
  split at h <;> cases h
  · exact .inl ⟨_, ‹_›, rfl⟩
  · exact .inr ⟨_, ‹_›, rfl⟩

/-- VENC raises what its operand's check raises, or writes the varint (40_varint.md R64). -/
theorem exec_venc_cases {s t : State} (h : exec .venc s = .next t) :
    (∃ k, varintOperand s.val.toInt = .error k ∧ t = raise k s) ∨
    (∃ v, varintOperand s.val.toInt = .ok v ∧ t = complete (encodedLength v) 0
      { s with dout := memWrite s.dout 0 (encodedLength v) (varintField v) }) := by
  simp only [exec, execVenc] at h
  split at h <;> cases h
  · exact .inl ⟨_, ‹_›, rfl⟩
  · exact .inr ⟨_, ‹_›, rfl⟩

/-- VENC0 writes the one byte (40_varint.md R65). -/
theorem exec_venc0_cases {s t : State} (h : exec .venc0 s = .next t) :
    t = complete 1 0 { s with dout := memWrite s.dout 0 1 0 } := by
  cases h
  rfl

/-- VDEC fails on a short budget, or reads the announced length (40_varint.md R66, R69). -/
theorem exec_vdec_cases {s t : State} (h : exec .vdec s = .next t) :
    (s.rem.toNat < announcedLength (lane s.din 0) ∧ t = raise .truncated s) ∨
    (announcedLength (lane s.din 0) ≤ s.rem.toNat ∧
      t = complete 0 (announcedLength (lane s.din 0))
        { s with
          res := zext 64 ((memRead s.din 0 (announcedLength (lane s.din 0)) %
            2 ^ (8 * announcedLength (lane s.din 0) - 2) : Nat) : Int)
          rem := zext 16 ((s.rem.toNat : Int) - announcedLength (lane s.din 0)) }) := by
  have hpos : 0 < announcedLength (lane s.din 0) := Nat.two_pow_pos _
  simp only [exec, execVdec, u] at h
  split at h
  · cases h
    exact .inl ⟨by omega, rfl⟩
  · split at h <;> cases h
    · exact .inl ⟨‹_›, rfl⟩
    · exact .inr ⟨by omega, rfl⟩

/-- PNENC raises what the choice of the length raises, or writes the truncated field (41_packet_number.md R86). -/
theorem exec_pnenc_cases {s t : State} (h : exec .pnenc s = .next t) :
    (∃ k, pnencLength s.val.toInt s.ref.toInt = .error k ∧ t = raise k s) ∨
    (∃ L, pnencLength s.val.toInt s.ref.toInt = .ok L ∧ t = complete L 0
      { s with dout := memWrite s.dout 0 L (truncatedField s.val.toInt L) }) := by
  simp only [exec, execPnenc] at h
  split at h <;> cases h
  · exact .inl ⟨_, ‹_›, rfl⟩
  · exact .inr ⟨_, ‹_›, rfl⟩

/-- PNDEC fails on its length, then on its reference, or recovers the number (41_packet_number.md R87, R89). -/
theorem exec_pndec_cases {s t : State} (h : exec .pndec s = .next t) :
    (¬ (1 ≤ s.len.toNat ∧ s.len.toNat ≤ 4) ∧ t = raise .invalidLength s) ∨
    (1 ≤ s.len.toNat ∧ s.len.toNat ≤ 4 ∧ ¬ (-1 ≤ s.ref.toInt ∧ s.ref.toInt ≤ 2 ^ 62 - 1) ∧ t = raise .invalidValue s) ∨
    (1 ≤ s.len.toNat ∧ s.len.toNat ≤ 4 ∧ -1 ≤ s.ref.toInt ∧ s.ref.toInt ≤ 2 ^ 62 - 1 ∧ t = complete 0 s.len.toNat
      { s with res := zext 64 (recovered (memRead s.din 0 s.len.toNat) s.len.toNat s.ref.toInt) }) := by
  have hmem : s.len.toNat ∈ Config.pnLengths ↔ 1 ≤ s.len.toNat ∧ s.len.toNat ≤ 4 := by
    simp [Config.pnLengths]
    omega
  simp only [exec, execPndec, u, s64] at h
  split at h
  · rename_i hl
    cases h
    exact .inl ⟨fun hc => hl (hmem.2 hc), rfl⟩
  · rename_i hl
    have hl' := hmem.1 (by simpa using hl)
    split at h
    · rename_i hr
      cases h
      refine .inr (.inl ⟨hl'.1, hl'.2, fun hc => ?_, rfl⟩)
      rw [(referenceLegal_iff _).2 hc] at hr
      cases hr
    · rename_i hr
      cases h
      have hr' := (referenceLegal_iff _).1 (by simpa using hr)
      exact .inr (.inr ⟨hl'.1, hl'.2, hr'.1, hr'.2, rfl⟩)

/-! ### One step -/

/-- With nothing waiting a step changes nothing (10_state.md R10). -/
theorem step_of_nil {s : State} (h : s.pending = []) : step s = .next s := by
  simp [step, h]

/-- A step carries out the host's next action (10_state.md R10). -/
theorem step_of_cons {s : State} {a : HostAction} {rest : List HostAction} (h : s.pending = a :: rest) :
    step s = perform a { s with pending := rest } := by
  simp [step, h]

/-- What a write to `CMD` can do (10_state.md R12; 60_exceptions.md R107). -/
theorem issueCommand_cases (w : Byte) (s : State) :
    (∃ i, decode w = .ok i ∧ issueCommand w s = exec i s) ∨
    ((∃ e, decode w = .error e) ∧ issueCommand w s = .next (raise .illegalCommand s)) := by
  unfold issueCommand
  cases h : decode w with
  | ok i => exact .inl ⟨i, rfl, rfl⟩
  | error e => exact .inr ⟨⟨e, rfl⟩, rfl⟩

end Sys2Proof.Machine
end

