-- ==== Sys2Proof/Laws/Flags.lean ====
section
/-! SUPPORT. What the STATUS of an error can be. -/

namespace Sys2Proof.Machine

/-- No error leaves the STATUS of a success (60_exceptions.md R101). -/
theorem statusOf_ne_ok (k : ErrorKind) : statusOf k ≠ 0x00 := by
  cases k <;> decide

/-- Distinct kinds have distinct STATUS values (60_exceptions.md R101). -/
theorem statusOf_injective {k k' : ErrorKind} (h : statusOf k = statusOf k') : k = k' := by
  cases k <;> cases k' <;> first | rfl | (exact absurd h (by decide))

end Sys2Proof.Machine
end

