-- ==== Sys2Proof/Laws/Lanes.lean ====
section
/-! SUPPORT. What the lane operations do: reading back a written lane, leaving the others, and the agreement of
`memRead` with `memWrite` (00_scope.md R4). -/

namespace Sys2Proof.Machine

theorem lane_getLsbD (w : Word) (i k : Nat) :
    (lane w i).getLsbD k = (decide (k < 8) && w.getLsbD (56 - 8 * i + k)) := by
  simp [lane, BitVec.getLsbD_extractLsb']

theorem setLane_getLsbD (w : Word) (i : Nat) (b : Byte) (k : Nat) (hi : i < 8) (hk : k < 64) :
    (setLane w i b).getLsbD k =
      if 56 - 8 * i ≤ k ∧ k < 64 - 8 * i then b.getLsbD (k - (56 - 8 * i)) else w.getLsbD k := by
  have hff : ∀ m, (0xff : Word).getLsbD m = decide (m < 8) := by
    intro m
    by_cases h : m < 8
    · interval_cases m <;> rfl
    · have : (0xff : Word) = (0xff : BitVec 8).setWidth 64 := rfl
      rw [this, BitVec.getLsbD_setWidth, BitVec.getLsbD_of_ge _ _ (by omega)]
      simp [h]
  simp only [setLane, BitVec.getLsbD_or, BitVec.getLsbD_and, BitVec.getLsbD_not, BitVec.getLsbD_shiftLeft,
    BitVec.getLsbD_setWidth, hff, hk, decide_true, Bool.true_and]
  by_cases h1 : k < 56 - 8 * i
  · simp [h1, show ¬ (56 - 8 * i ≤ k) by omega]
  · by_cases h2 : k < 64 - 8 * i
    · simp [h1, h2, show k - (56 - 8 * i) < 8 by omega, show 56 - 8 * i ≤ k by omega,
        show k - (56 - 8 * i) < 64 by omega]
    · simp [h1, h2, show ¬ (k - (56 - 8 * i) < 8) by omega, BitVec.getLsbD_of_ge b _ (by omega : 8 ≤ k - (56 - 8 * i))]

theorem lane_setLane_self (w : Word) (i : Nat) (b : Byte) (hi : i < 8) : lane (setLane w i b) i = b := by
  apply BitVec.eq_of_getLsbD_eq
  intro k hk
  rw [lane_getLsbD, setLane_getLsbD _ _ _ _ hi (by omega)]
  simp [hk, show 56 - 8 * i + k < 64 - 8 * i by omega]

theorem lane_setLane_ne (w : Word) (i j : Nat) (b : Byte) (hi : i < 8) (hj : j < 8) (hne : i ≠ j) :
    lane (setLane w i b) j = lane w j := by
  apply BitVec.eq_of_getLsbD_eq
  intro k hk
  rw [lane_getLsbD, lane_getLsbD, setLane_getLsbD _ _ _ _ hi (by omega)]
  rw [if_neg (by omega)]

/-- Two windows with the same eight lanes are equal. -/
theorem window_ext {a b : Word} (h : ∀ i < 8, lane a i = lane b i) : a = b := by
  apply BitVec.eq_of_getLsbD_eq
  intro k hk
  have := congrArg (fun x => x.getLsbD (k % 8)) (h (7 - k / 8) (by omega))
  simp only [lane_getLsbD, show k % 8 < 8 by omega, decide_true, Bool.true_and,
    show 56 - 8 * (7 - k / 8) + k % 8 = k by omega] at this
  exact this

/-- A lane as a part of the register's value (10_state.md R18). -/
theorem lane_toNat (w : Word) (i : Nat) : (lane w i).toNat = w.toNat / 2 ^ (56 - 8 * i) % 256 := by
  simp [lane, BitVec.extractLsb'_toNat, Nat.shiftRight_eq_div_pow]

theorem byteOf_toNat (v m : Nat) : (byteOf v m).toNat = v / 2 ^ (8 * m) % 256 := by
  simp [byteOf]

/-! ### `memWrite` -/

theorem foldl_setLane_outside (l : List Nat) (f : Nat → Byte) (i k : Nat) (w : Word) (hk : k < 8)
    (hl : ∀ j ∈ l, i + j < 8 ∧ i + j ≠ k) :
    lane (l.foldl (fun d j => setLane d (i + j) (f j)) w) k = lane w k := by
  induction l generalizing w with
  | nil => rfl
  | cons j l ih =>
    have hj := hl j (List.mem_cons_self ..)
    rw [List.foldl_cons, ih _ fun m hm => hl m (List.mem_cons_of_mem _ hm),
      lane_setLane_ne _ _ _ _ hj.1 hk hj.2]

theorem foldl_range_setLane (n i j : Nat) (f : Nat → Byte) (w : Word) (hn : i + n ≤ 8) (hj : j < n) :
    lane ((List.range n).foldl (fun d j => setLane d (i + j) (f j)) w) (i + j) = f j := by
  induction n with
  | zero => omega
  | succ n ih =>
    rw [List.range_succ, List.foldl_append, List.foldl_cons, List.foldl_nil]
    by_cases h : j = n
    · subst h
      exact lane_setLane_self _ _ _ (by omega)
    · rw [lane_setLane_ne _ _ _ _ (by omega) (by omega) (by omega)]
      exact ih (by omega) (by omega)

/-- A written lane holds its byte of the big-endian value (00_scope.md R4). -/
theorem lane_memWrite_inside (w : Word) (i n v j : Nat) (hn : i + n ≤ 8) (hj : j < n) :
    lane (memWrite w i n v) (i + j) = byteOf v (n - 1 - j) :=
  foldl_range_setLane n i j (fun j => byteOf v (n - 1 - j)) w hn hj

/-- A lane outside the written range keeps its value (00_scope.md R4). -/
theorem lane_memWrite_outside (w : Word) (i n v k : Nat) (hn : i + n ≤ 8) (hk : k < 8)
    (ho : k < i ∨ i + n ≤ k) : lane (memWrite w i n v) k = lane w k := by
  apply foldl_setLane_outside _ (fun j => byteOf v (n - 1 - j)) i k w hk
  intro j hj
  have := List.mem_range.1 hj
  omega

/-! ### `memRead` -/

/-- The big-endian reading grows by one lane at a time. -/
theorem memRead_succ (w : Word) (i n : Nat) :
    memRead w i (n + 1) = memRead w i n * 256 + (lane w (i + n)).toNat := by
  have h : ((List.range n).map fun j => (lane w (i + j)).toNat * 2 ^ (8 * (n + 1 - 1 - j))).sum
      = memRead w i n * 256 := by
    unfold memRead
    rw [← List.sum_map_mul_right]
    congr 1
    apply List.map_congr_left
    intro j hj
    have := List.mem_range.1 hj
    rw [show 8 * (n + 1 - 1 - j) = 8 * (n - 1 - j) + 8 by omega, pow_add, ← mul_assoc]
    norm_num
  rw [memRead, List.range_succ, List.map_append, List.sum_append, h]
  simp

@[simp] theorem memRead_zero (w : Word) (i : Nat) : memRead w i 0 = 0 := rfl

/-- `MemRead` of `n` lanes is an `8n`-bit value. -/
theorem memRead_lt (w : Word) (i n : Nat) : memRead w i n < 2 ^ (8 * n) := by
  induction n with
  | zero => simp
  | succ n ih =>
    have hb : (lane w (i + n)).toNat < 256 := (lane w (i + n)).isLt
    rw [memRead_succ, show 8 * (n + 1) = 8 * n + 8 by omega, pow_add]
    omega

/-- `MemRead` depends on its own lanes only (00_scope.md R4). -/
theorem memRead_congr (w w' : Word) (i n : Nat) (h : ∀ j < n, lane w (i + j) = lane w' (i + j)) :
    memRead w i n = memRead w' i n := by
  unfold memRead
  congr 1
  apply List.map_congr_left
  intro j hj
  rw [h j (List.mem_range.1 hj)]

/-- The lanes determine the reading: lanes that hold the bytes of `v` read as `v`. -/
theorem memRead_of_bytes (w : Word) (i n v : Nat) (hv : v < 2 ^ (8 * n))
    (h : ∀ j < n, lane w (i + j) = byteOf v (n - 1 - j)) : memRead w i n = v := by
  induction n generalizing v with
  | zero => simp at hv; simp [hv]
  | succ n ih =>
    have hlast : (lane w (i + n)).toNat = v % 256 := by
      rw [h n (by omega)]
      simp [byteOf]
    have hinit : memRead w i n = v / 256 := by
      apply ih
      · rw [show 8 * (n + 1) = 8 * n + 8 by omega, pow_add] at hv
        omega
      · intro j hj
        rw [h j (by omega)]
        unfold byteOf
        rw [show 8 * (n + 1 - 1 - j) = 8 + 8 * (n - 1 - j) by omega, pow_add, ← Nat.div_div_eq_div_mul]
        norm_num
    rw [memRead_succ, hlast, hinit]
    omega

/-- Reading back what was written (00_scope.md R4). -/
theorem memRead_memWrite (w : Word) (i n v : Nat) (hn : i + n ≤ 8) (hv : v < 2 ^ (8 * n)) :
    memRead (memWrite w i n v) i n = v :=
  memRead_of_bytes _ _ _ _ hv fun j hj => lane_memWrite_inside w i n v j hn hj

end Sys2Proof.Machine
end

