-- ==== Sys2Proof/Laws/PerInstr.lean ====
section
/-! SUPPORT. Statements about every command as syntax, one lemma per command. -/

namespace Sys2Proof.Laws.CommandWord

/-- The command's word is well formed and its two fields are the ones the format `CMD8` gives it (30_encoding.md R45). -/
def Statement (i : Instr) : Prop :=
  i.wellFormed = true ∧ wordWellFormed (encode i) = true ∧ zeroField (encode i) = 0 ∧ opField (encode i) = opCode i

theorem vlen : Statement .vlen := by unfold Statement; decide
theorem venc : Statement .venc := by unfold Statement; decide
theorem venc0 : Statement .venc0 := by unfold Statement; decide
theorem vdec : Statement .vdec := by unfold Statement; decide
theorem pnenc : Statement .pnenc := by unfold Statement; decide
theorem pndec : Statement .pndec := by unfold Statement; decide

end Sys2Proof.Laws.CommandWord
end

