-- ==== Sys2Proof/Laws/Run.lean ====
section
/-! SUPPORT. Several steps of the machine behind the host's interface, one at a time. -/

namespace Sys2Proof.Machine

theorem run_zero (s : State) : core.run 0 s = .next s := rfl

/-- A run goes on from the state its first step answers. -/
theorem run_of_step {s t : State} (k : Nat) (h : step s = .next t) : core.run (k + 1) s = core.run k t := by
  have h' : core.step s = Host.Outcome.next t := h
  simp only [Host.Core.run, h']

/-- A write of a command's own word to `CMD` executes the command (10_state.md R12). -/
theorem step_of_cmd {s : State} {i : Instr} {rest : List HostAction} (h : s.pending = cmd i :: rest) :
    step s = exec i { s with pending := rest } := by
  rw [step_of_cons h]
  cases i <;> rfl

end Sys2Proof.Machine
end

