-- ==== Sys2Proof/Tests/Slice0.lean ====
section
/-! SUPPORT. The model's own tests: words written out from the encodings, the spec's vectors (95_test_vectors.md), each
one step on a small state, and for every statement with hypotheses a state and operands that meet them. -/

namespace Sys2Proof.Tests

open Sys2Proof Sys2Proof.Machine

/-- The state a command leaves, or `none` where it does not go on. -/
def after (i : Instr) (s : State) : Option State :=
  match exec i s with
  | .next t => some t
  | .fault _ => none
  | .refused _ => none

/-- The state one step leaves. -/
def afterStep (s : State) : Option State :=
  match step s with
  | .next t => some t
  | .fault _ => none
  | .refused _ => none

/-- The reset state with an operand in VAL and the marker of 95_test_vectors.md section 2.1 in DOUT. -/
def withVal (v : Word) : State := { State.reset with val := v, dout := 0xa5a5a5a5a5a5a5a5 }

/-- The reset state with DIN, REM and the marker of 95_test_vectors.md section 2.3 in RES. -/
def withDin (d : Word) (r : BitVec 16) : State := { State.reset with din := d, rem := r, res := 0x1111111111111111 }

/-- The reset state with operands for PNDEC, as in 95_test_vectors.md section 2.6. -/
def withField (d : Word) (l : Byte) (ref : Word) : State :=
  { State.reset with din := d, len := l, ref := ref, rem := 9, res := 0x1111111111111111 }

/-- The reset state with operands for PNENC. -/
def withPn (pn ref : Word) : State := { State.reset with val := pn, ref := ref }

/-- The reset state with one host action waiting. -/
def waiting (a : HostAction) : State := { State.reset with pending := [a] }

/-! ### Well-formedness: an ill-formed word for each check, refused (30_encoding.md R47) -/

theorem test_wellFormed_refuses_op_zero : wordWellFormed 0b00000000 = false := by decide
theorem test_wellFormed_refuses_op_seven : wordWellFormed 0b00000111 = false := by decide
theorem test_wellFormed_refuses_high_bits : wordWellFormed 0b00001001 = false := by decide
theorem test_decode_refuses_op_seven : decode 0b00000111 = .error .unassignedOp := by decide
theorem test_decode_refuses_high_bits : decode 0b10000001 = .error .nonzeroHighBits := by decide

/-! ### Decoding: one word per command, written out from 30_encoding.md R45 and R46 -/

theorem test_decode_vlen : decode 0b00000001 = .ok .vlen := by decide
theorem test_decode_venc : decode 0b00000010 = .ok .venc := by decide
theorem test_decode_venc0 : decode 0b00000011 = .ok .venc0 := by decide
theorem test_decode_vdec : decode 0b00000100 = .ok .vdec := by decide
theorem test_decode_pnenc : decode 0b00000101 = .ok .pnenc := by decide
theorem test_decode_pndec : decode 0b00000110 = .ok .pndec := by decide
theorem test_decodeTableWord_pndec : decodeTableWord 8 6 = some .pndec := by decide

/-! ### One step per command (95_test_vectors.md) -/

/-- V8 and the VLEN note of section 2.1. -/
theorem test_vlen_16384 : (after .vlen (withVal 0x4000)).map (fun t => (t.status, t.olen, t.dout)) =
    some (0x00, 4, 0xa5a5a5a5a5a5a5a5) := by decide

/-- V14. -/
theorem test_vlen_too_large : (after .vlen (withVal 0x4000000000000000)).map (fun t => (t.status, t.olen)) =
    some (0x03, 0) := by decide

/-- V8. -/
theorem test_venc_16384 : (after .venc (withVal 0x4000)).map (fun t => (t.status, t.olen, t.dout)) =
    some (0x00, 4, 0x80004000a5a5a5a5) := by decide

/-- V12. -/
theorem test_venc_eight_bytes : (after .venc (withVal 0x02197c5eff14e88c)).map (fun t => (t.olen, t.dout)) =
    some (8, 0xc2197c5eff14e88c) := by decide

/-- Z1. -/
theorem test_venc0 : (after .venc0 (withVal 0xffffffffffffffff)).map (fun t => (t.status, t.olen, t.dout, t.val)) =
    some (0x00, 1, 0x00a5a5a5a5a5a5a5, 0xffffffffffffffff) := by decide

/-- Y16. -/
theorem test_vdec_large_budget : (after .vdec (withDin 0x4025000000000000 65535)).map
    (fun t => (t.status, t.res, t.consumed, t.rem)) = some (0x00, 37, 2, 65533) := by decide

/-- Y6. -/
theorem test_vdec_truncated : (after .vdec (withDin 0xc2197c5eff14e88c 7)).map
    (fun t => (t.status, t.res, t.consumed, t.rem)) = some (0x81, 0x1111111111111111, 0, 7) := by decide

/-- F6. -/
theorem test_pnenc_all_ones : (after .pnenc (withPn 0xff 0xffffffffffffffff)).map
    (fun t => (t.status, t.olen, t.dout)) = some (0x00, 2, 0x00ff000000000000) := by decide

/-- Q36. -/
theorem test_pnenc_reference_tested_first : (after .pnenc (withPn 0x4000000000000000 0xfffffffffffffffe)).map
    (fun t => (t.status, t.olen)) = some (0x02, 0) := by decide

/-- W2, the document's example E6. -/
theorem test_pndec_moves_up : (after .pndec (withField 0x00e9000000000000 2 33000)).map
    (fun t => (t.status, t.res, t.consumed, t.rem)) = some (0x00, 65769, 2, 9) := by decide

/-- W46. -/
theorem test_pndec_guarded : (after .pndec (withField 0 1 0x3ffffffffffffffe)).map
    (fun t => (t.status, t.res)) = some (0x00, 0x3fffffffffffff00) := by decide

/-- I4. -/
theorem test_illegal_word : (afterStep (waiting (.write .cmd 0x09))).map (fun t => (t.status, t.olen, t.consumed)) =
    some (0x06, 0, 0) := by decide

/-- A1 and A3. -/
theorem test_read_cmd_and_unassigned : (readRegister .cmd (withVal 5)).toNat = 0 ∧
    (readRegister (Reg.ofNumber 11) (withVal 5)).toNat = 0 := by decide

/-- A2. -/
theorem test_write_status_ignored : (afterStep (waiting (.write .status 0xff))).map (·.status) = some 0x00 := by decide

/-- The notation of 30_encoding.md R52: `wr DIN, 7b bd` sets `DIN = 0x7bbd000000000000`. -/
theorem test_windowOf : windowOf [0x7b, 0xbd] = 0x7bbd000000000000 := by decide

/-- A command put first by `withFetchWord` is the one the next step runs (S5). -/
theorem test_withFetchWord : (afterStep (State.reset.withFetchWord 8 5)).map (fun t => (t.status, t.olen, t.pending)) =
    some (0x00, 1, []) := by decide

/-! ### Witnesses: the hypotheses of each statement are met -/

theorem witness_IdleBlockDoesNothing : ∃ s : State, s.pending = [] := ⟨State.reset, rfl⟩

theorem witness_StepTakesExactlyOneAction :
    (∃ (s t : State) (a : HostAction) (rest : List HostAction), s.pending = a :: rest ∧ step s = .next t) ∧
    (∃ s t : State, step s = .next t ∧ s.pending = [.read .ref] ∧ t.reads ≠ s.reads) ∧
    (∃ s t : State, exec .venc s = .next t) :=
  ⟨⟨waiting (cmd .venc0), _, _, _, rfl, rfl⟩, ⟨waiting (.read .ref), _, rfl, rfl, by decide⟩, ⟨withVal 5, _, rfl⟩⟩

theorem witness_StepRunsTheIssuedCommand :
    (∃ (s : State) (w : Byte) (i : Instr) (rest : List HostAction),
      s.pending = .write .cmd w :: rest ∧ decode w = .ok i) ∧ (∃ (w : Nat) (i : Instr), decodeTableWord 8 w = some i) :=
  ⟨⟨waiting (.write .cmd 0x01), 0x01, .vlen, [], rfl, by decide⟩, ⟨6, .pndec, by decide⟩⟩

theorem witness_IllegalWordRaisesIllegalCommand :
    ∀ w ∈ ([0x00, 0x07, 0x08, 0xff] : List Byte), w ∉ ([0x01, 0x02, 0x03, 0x04, 0x05, 0x06] : List Byte) := by decide

/-- The clauses of VLEN and of VENC: both errors at their boundary, and both ends of the domain. -/
theorem witness_VlenReportsTheSmallestClass_VencWritesTheVarint :
    (withVal 0xffffffffffffffff).val.toInt < 0 ∧
    (withVal 0x4000000000000000).val.toInt > 4611686018427387903 ∧
    (0 ≤ (withVal 0).val.toInt ∧ (withVal 0).val.toInt ≤ 4611686018427387903) ∧
    (0 ≤ (withVal 0x3fffffffffffffff).val.toInt ∧
      (withVal 0x3fffffffffffffff).val.toInt ≤ 4611686018427387903) := by decide

theorem witness_VarintDomainInRegisterBits :
    (withVal 0x8000000000000000).val.getLsbD 63 = true ∧
    ((withVal 0x4000000000000000).val.getLsbD 63 = false ∧ (withVal 0x4000000000000000).val.getLsbD 62 = true) ∧
    ((withVal 0x3fffffffffffffff).val.getLsbD 63 = false ∧ (withVal 0x3fffffffffffffff).val.getLsbD 62 = false) := by
  decide

theorem witness_VencLengthIsVlenLength : ∃ s t t' : State, exec .vlen s = .next t ∧ exec .venc s = .next t' :=
  ⟨withVal 64, _, _, rfl, rfl⟩

theorem witness_Venc0WritesTheZeroByte : ∃ s t : State, exec .venc { s with val := 0 } = .next t :=
  ⟨withVal 64, _, rfl⟩

/-- Both clauses of VDEC, a budget one below the announced length and one equal to it, at the first byte of each class. -/
theorem witness_VdecDecodesEachClass :
    (∃ (s : State) (b : Nat → Nat), (∀ j, b j = (lane s.din j).toNat) ∧ s.rem.toNat < 2 ^ (b 0 / 64)) ∧
    (∀ d ∈ ([0x3f, 0x40, 0x80, 0xc0] : List Byte),
      ∃ (s : State) (b : Nat → Nat), (∀ j, b j = (lane s.din j).toNat) ∧ b 0 = d.toNat ∧ 2 ^ (b 0 / 64) ≤ s.rem.toNat) := by
  refine ⟨⟨withDin 0x8000000000000000 3, fun j => (lane 0x8000000000000000 j).toNat, fun _ => rfl, by decide⟩, ?_⟩
  intro d _
  refine ⟨withDin (setLane 0 0 d) 8, fun j => (lane (setLane 0 0 d) j).toNat, fun _ => rfl, ?_⟩
  revert d
  decide

theorem witness_VdecAcceptsEveryClass :
    1 ≤ 3 ∧ 37 < 2 ^ (8 * 2 ^ 1 - 2) ∧ 2 ^ 1 ≤ (withDin 0x4025000000000000 2).rem.toNat ∧
    (∀ j < 2 ^ 1, (lane (withDin 0x4025000000000000 2).din j).toNat =
      (1 * 2 ^ (8 * 2 ^ 1 - 2) + 37) / 2 ^ (8 * (2 ^ 1 - 1 - j)) % 256) := by decide

theorem witness_VdecDependsOnlyOnItsLanes :
    (∃ s t : State, exec .vdec s = .next t ∧ s.rem = 0) ∧
    (∃ (s t : State) (d : Word), exec .vdec s = .next t ∧
      s.rem.toNat < 2 ^ ((lane s.din 0).toNat / 64) ∧ lane d 0 = lane s.din 0) ∧
    (∃ (s t : State) (d : Word), exec .vdec s = .next t ∧
      ∀ j < 2 ^ ((lane s.din 0).toNat / 64), lane d j = lane s.din j) :=
  ⟨⟨withDin 0x2500000000000000 0, _, rfl, rfl⟩,
   ⟨withDin 0x4025000000000000 1, _, 0x40ff000000000000, rfl, by decide, by decide⟩,
   ⟨withDin 0x2500000000000000 1, _, 0x25ffffffffffffff, rfl, by decide⟩⟩

theorem witness_VdecChargesTheBudget :
    (∃ s t : State, exec .vdec s = .next t ∧ t.status = 0x00) ∧ (∃ s t : State, exec .vdec s = .next t ∧ t.status ≠ 0x00) ∧
    (∃ (w : Byte) (s t : State), w ≠ 0x04 ∧ issueCommand w s = .next t) :=
  ⟨⟨withDin 0x2500000000000000 1, _, rfl, rfl⟩, ⟨State.reset, _, rfl, by decide⟩,
   ⟨0x06, withField 0 1 0, _, by decide, rfl⟩⟩

theorem witness_VarintRoundTrip :
    ∃ (s t : State) (r : BitVec 16) (d : Word), 0 ≤ s.val.toInt ∧ s.val.toInt ≤ 4611686018427387903 ∧
      exec .venc s = .next t ∧ t.olen.toNat ≤ r.toNat ∧ ∀ j < t.olen.toNat, lane d j = lane t.dout j :=
  ⟨withVal 0x4000, _, 4, 0x80004000ffffffff, by decide, by decide, rfl, by decide, by decide⟩

theorem witness_PrefixOfVarintIsTruncated :
    ∃ (s t : State) (r : BitVec 16) (d : Word), exec .venc s = .next t ∧ t.status = 0x00 ∧ r.toNat < t.olen.toNat ∧
      ∀ j < r.toNat, lane d j = lane t.dout j :=
  ⟨withVal 0x4000, _, 3, 0x800040ffffffffff, rfl, rfl, by decide, by decide⟩

theorem witness_PnencWithoutReference :
    (∃ s : State, s.ref.toInt = -1 ∧ 0 ≤ s.val.toInt ∧ s.val.toInt ≤ 2 ^ 62 - 1 ∧ 0xffffffff ≤ s.val.toInt) ∧
    (∃ s : State, s.ref.toInt = -1 ∧ 0 ≤ s.val.toInt ∧ s.val.toInt ≤ 2 ^ 62 - 1 ∧ s.val.toInt < 0xffffffff) :=
  ⟨⟨withPn 0xffffffff 0xffffffffffffffff, by decide⟩, ⟨withPn 0xfffffffe 0xffffffffffffffff, by decide⟩⟩

theorem witness_PnencWithReference :
    (∃ s : State, 0 ≤ s.ref.toInt ∧ s.ref.toInt ≤ 2 ^ 62 - 1 ∧ 0 ≤ s.val.toInt ∧ s.val.toInt ≤ 2 ^ 62 - 1 ∧
      s.val.toInt ≤ s.ref.toInt) ∧
    (∃ s : State, 0 ≤ s.ref.toInt ∧ s.ref.toInt ≤ 2 ^ 62 - 1 ∧ 0 ≤ s.val.toInt ∧ s.val.toInt ≤ 2 ^ 62 - 1 ∧
      2 ^ 31 ≤ s.val.toInt - s.ref.toInt) ∧
    (∃ s : State, 0 ≤ s.ref.toInt ∧ s.ref.toInt ≤ 2 ^ 62 - 1 ∧ 0 ≤ s.val.toInt ∧ s.val.toInt ≤ 2 ^ 62 - 1 ∧
      s.ref.toInt < s.val.toInt ∧ s.val.toInt - s.ref.toInt < 2 ^ 31) :=
  ⟨⟨withPn 0 0, by decide⟩, ⟨withPn 0x80000000 0, by decide⟩, ⟨withPn 0x7fffffff 0, by decide⟩⟩

theorem witness_PacketNumberOperandDomains :
    (∃ s : State, s.val.toInt < 0) ∧
    (∃ s : State, s.ref.toInt < -1) ∧ (∃ s : State, 2 ^ 62 - 1 < s.ref.toInt) ∧
    (∃ s : State, 2 ^ 62 - 1 < s.val.toInt ∧ -1 ≤ s.ref.toInt ∧ s.ref.toInt ≤ 2 ^ 62 - 1) ∧
    (∃ s : State, 1 ≤ s.len.toNat ∧ s.len.toNat ≤ 4 ∧ (s.ref.toInt < -1 ∨ 2 ^ 62 - 1 < s.ref.toInt)) :=
  ⟨⟨withPn 0xffffffffffffffff 0, by decide⟩, ⟨withPn 5 0xfffffffffffffffe, by decide⟩,
   ⟨withPn 5 0x4000000000000000, by decide⟩, ⟨withPn 0x4000000000000000 0x3fffffffffffffff, by decide⟩,
   ⟨withField 0 4 0xfffffffffffffffe, by decide⟩⟩

theorem witness_MonotonicAgainstTheReferenceOnly :
    (∃ s t : State, exec .pnenc s = .next t ∧ t.status = 0x04) ∧ (∃ s t : State, exec .pnenc s = .next t ∧ t.status = 0x00) ∧
    (∃ s t : State, exec .pndec s = .next t) :=
  ⟨⟨withPn 5 5, _, rfl, by decide⟩, ⟨withPn 6 5, _, rfl, rfl⟩, ⟨withField 0 1 0, _, rfl⟩⟩

theorem witness_TwoLengthRulesDiffer :
    ((withPn 200 0xffffffffffffffff).val = 200 ∧ (withPn 200 0xffffffffffffffff).ref = 0xffffffffffffffff) ∧
    ((withPn 200 0).val = 200 ∧ (withPn 200 0).ref = 0) := by decide

theorem witness_PndecRejectsOtherLengths :
    (withField 0 0 0).len ∉ ([1, 2, 3, 4] : List Byte) ∧ (withField 0 5 0).len ∉ ([1, 2, 3, 4] : List Byte) ∧
    (withField 0 4 0).len ∈ ([1, 2, 3, 4] : List Byte) := by decide

theorem witness_PndecWithoutReference :
    ∃ s : State, s.ref.toInt = -1 ∧ 1 ≤ s.len.toNat ∧ s.len.toNat ≤ 4 :=
  ⟨withField 0xffffffff00000000 4 0xffffffffffffffff, by decide⟩

/-- The operands of the document's example E6, where the first test of the formula holds with equality. -/
theorem witness_PndecReconstructs :
    ∃ (s : State) (expected win mask field candidate : Word),
      0 ≤ s.ref.toInt ∧ s.ref.toInt ≤ 2 ^ 62 - 1 ∧ 1 ≤ s.len.toNat ∧ s.len.toNat ≤ 4 ∧
      expected = s.ref + 1 ∧ win = BitVec.ofNat 64 (2 ^ (8 * s.len.toNat)) ∧ mask = win - 1 ∧
      field = s.din >>> (64 - 8 * s.len.toNat) ∧ candidate = (expected &&& ~~~mask) ||| field ∧
      (candidate.toNat : Int) = expected.toNat - win.toNat / 2 :=
  ⟨withField 0x00e9000000000000 2 33000, 33001, 65536, 65535, 233, 233, by decide⟩

/-- The upper end of the window: `x = REF + 1 + hwin` (W26: `REF = 0x100`, one byte `81`). -/
theorem witness_PndecRecoversTheWindow :
    ∃ (s : State) (x : Int), 0 ≤ s.ref.toInt ∧ s.ref.toInt ≤ 2 ^ 62 - 1 ∧ 1 ≤ s.len.toNat ∧ s.len.toNat ≤ 4 ∧
      0 ≤ x ∧ x ≤ 2 ^ 62 - 1 ∧
      s.ref.toInt + 1 - 2 ^ (8 * s.len.toNat - 1) < x ∧ x ≤ s.ref.toInt + 1 + 2 ^ (8 * s.len.toNat - 1) ∧
      x % 2 ^ (8 * s.len.toNat) = (s.din >>> (64 - 8 * s.len.toNat)).toNat :=
  ⟨withField 0x8100000000000000 1 0x100, 0x181, by decide⟩

/-- Each clause: no reference; `REF = 2^62 - 1` with the field at and just above half the window. -/
theorem witness_PndecResultRange :
    (∃ s t : State, exec .pndec s = .next t ∧ t.status = 0x00 ∧ s.ref.toInt = -1) ∧
    (∃ (s t : State) (field : Nat), exec .pndec s = .next t ∧ t.status = 0x00 ∧ s.ref.toInt = 2 ^ 62 - 1 ∧
      field = (s.din >>> (64 - 8 * s.len.toNat)).toNat ∧ field ≤ 2 ^ (8 * s.len.toNat - 1) ∧ 2 ^ 62 - 1 < t.res.toNat) ∧
    (∃ (s t : State) (field : Nat), exec .pndec s = .next t ∧ t.status = 0x00 ∧ s.ref.toInt = 2 ^ 62 - 1 ∧
      field = (s.din >>> (64 - 8 * s.len.toNat)).toNat ∧ 2 ^ (8 * s.len.toNat - 1) < field) :=
  ⟨⟨withField 0xff00000000000000 1 0xffffffffffffffff, _, rfl, rfl, by decide⟩,
   ⟨withField 0x8000000000000000 1 0x3fffffffffffffff, _, 0x80, rfl, rfl, by decide, by decide, by decide, by decide⟩,
   ⟨withField 0x8100000000000000 1 0x3fffffffffffffff, _, 0x81, rfl, rfl, by decide, by decide, by decide⟩⟩

theorem witness_NoReferenceBranchAgreesWithFormula : 1 ≤ 4 ∧ 4 ≤ 4 ∧ 0xffffffff < 2 ^ (8 * 4) := by decide

theorem witness_PacketNumberRoundTrip :
    ∃ (s t : State) (d : Word), exec .pnenc s = .next t ∧ t.status = 0x00 ∧
      ∀ j < t.olen.toNat, lane d j = lane t.dout j :=
  ⟨withPn 0x100e7 0x80e8, _, 0x00e7ffffffffffff, rfl, rfl, by decide⟩

/-- An error of a command (which also leaves a state from which another word can be issued) and an illegal word. -/
theorem witness_ErrorCompletionWritesThreeRegisters_FailedCommandLeavesNoTrace :
    (∃ (w : Byte) (s t : State), issueCommand w s = .next t ∧ t.status ≠ 0x00) ∧
    (∃ s t : State, issueCommand 0x07 s = .next t ∧ t.status ≠ 0x00) :=
  ⟨⟨0x04, State.reset, _, rfl, by decide⟩, ⟨State.reset, _, rfl, by decide⟩⟩

/-- Every command answers a next state at reset, so no clause of the statements over commands is empty. -/
theorem witness_ErrorsEachCommandCanRaise_CommandsNeverWriteTheirOperands :
    ∀ i : Instr, ∃ t, exec i State.reset = .next t := by
  intro i
  cases i <;> exact ⟨_, rfl⟩

theorem witness_StatusLayout :
    (∃ (w : Byte) (s t : State), issueCommand w s = .next t) ∧
    (∃ (r : Reg) (v : BitVec r.width) (s t : State), r ≠ .cmd ∧ perform (.write r v) s = .next t) ∧
    (∃ (r : Reg) (s t : State), perform (.read r) s = .next t) :=
  ⟨⟨0x01, State.reset, _, rfl⟩, ⟨.status, (0xff : BitVec 8), State.reset, _, by decide, rfl⟩, ⟨.res, State.reset, _, rfl⟩⟩

theorem witness_LanesBeyondTheLengthAreKept :
    ∃ (s t : State), issueCommand 0x02 s = .next t ∧ t.olen.toNat ≤ 4 ∧ 4 < 8 :=
  ⟨withVal 0x4000, _, rfl, by decide, by decide⟩

/-- Two states that agree on a command's operands and on nothing else, for each command. -/
theorem witness_OutcomeDependsOnTheOperandsOnly :
    ∀ i : Instr, ∃ s s' t t' : State, s ≠ s' ∧ s.val = s'.val ∧ s.ref = s'.ref ∧ s.din = s'.din ∧ s.len = s'.len ∧
      s.rem = s'.rem ∧ exec i s = .next t ∧ exec i s' = .next t' := by
  intro i
  cases i <;>
    exact ⟨State.reset, { State.reset with status := 0x81, dout := 7, res := 9 }, _, _, by decide, rfl, rfl, rfl, rfl,
      rfl, rfl, rfl⟩

/-- Each kind of number in the first clause, and both kinds in the second. -/
theorem witness_OtherHostAccessesAreIgnored :
    (∃ _ : BitVec (Reg.ofNumber 1).width, 1 = 1) ∧ (∃ _ : BitVec (Reg.ofNumber 11).width, 10 < 11) ∧ (0 = 0 ∨ 10 < 0) :=
  ⟨⟨(0xff : BitVec 8), rfl⟩, ⟨(1 : BitVec 64), by decide⟩, .inl rfl⟩

theorem witness_HostWritesCommute : Reg.din ≠ .cmd ∧ Reg.rem ≠ .cmd ∧ Reg.din ≠ Reg.rem := by decide

/-- A window that holds the bytes, and for each pseudo-instruction a state whose host is about to run it. -/
theorem witness_PseudoInstructionsRunTheirCommand :
    (∀ j < 8, lane 0x7bbd000000000000 j = ([0x7b, 0xbd] : List Byte).getD j 0) ∧
    (∃ s : State, s.pending = pseudoVlen 5 ++ []) ∧ (∃ s : State, s.pending = pseudoVenc 5 ++ []) ∧
    (∃ s : State, s.pending = pseudoVenc0 ++ []) ∧ (∃ s : State, s.pending = pseudoVdec [0x7b, 0xbd] 2 ++ []) ∧
    (∃ s : State, s.pending = pseudoPnenc 5 4 ++ []) ∧ (∃ s : State, s.pending = pseudoPndec [0x7b, 0xbd] 2 4 ++ []) :=
  ⟨by decide, ⟨{ State.reset with pending := _ }, rfl⟩, ⟨{ State.reset with pending := _ }, rfl⟩,
   ⟨{ State.reset with pending := _ }, rfl⟩, ⟨{ State.reset with pending := _ }, rfl⟩,
   ⟨{ State.reset with pending := _ }, rfl⟩, ⟨{ State.reset with pending := _ }, rfl⟩⟩

theorem witness_WindowReadsBigEndian : 8 ≤ 8 := by decide

theorem witness_StepKeepsTheResultInvariant : ∃ s t : State, ResultInv s ∧ step s = .next t :=
  ⟨waiting (cmd .vdec), _,
    ⟨by decide, by decide, by decide, by decide, by decide, by decide, by decide⟩, rfl⟩

end Sys2Proof.Tests
end

section
/-! PROOFS. The outcome of a command is a function of the registers it reads (10_state.md R27): for each command, two
states that agree on its operands complete alike. -/

namespace Sys2Proof.Machine

/-- Two completions leave the same values in the three registers every command writes (10_state.md R13, R20, R21). -/
structure SameCompletion (t t' : State) : Prop where
  status : t.status = t'.status
  olen : t.olen = t'.olen
  consumed : t.consumed = t'.consumed

/-- Two completions leave the same bytes in the lanes an encode wrote, those below OLEN (10_state.md R19, R20). -/
def SameWrittenLanes (t t' : State) : Prop :=
  ∀ j < t.olen.toNat, lane t.dout j = lane t'.dout j

/-- Two completions leave the same RES if the decode succeeded (10_state.md R22). -/
def SameResult (t t' : State) : Prop :=
  t.status = 0x00 → t.res = t'.res

/-! ### Completions of two states -/

theorem raise_sameCompletion (k : ErrorKind) (s s' : State) : SameCompletion (raise k s) (raise k s') :=
  ⟨rfl, rfl, rfl⟩

/-- An error reports no written lane (60_exceptions.md R103). -/
theorem raise_sameWrittenLanes (k : ErrorKind) (s s' : State) : SameWrittenLanes (raise k s) (raise k s') := by
  intro j hj
  simp at hj

theorem raise_sameResult (k : ErrorKind) (s s' : State) : SameResult (raise k s) (raise k s') :=
  fun hok => absurd hok (statusOf_ne_ok k)

theorem complete_sameCompletion (o c : Nat) (s s' : State) :
    SameCompletion (complete o c s) (complete o c s') :=
  ⟨rfl, rfl, rfl⟩

/-- A lane that `MemWrite` writes does not depend on what the window held (00_scope.md R4). -/
theorem lane_memWrite_congr (w w' : Word) {n j : Nat} (v : Nat) (hn : n ≤ 8) (hj : j < n) :
    lane (memWrite w 0 n v) j = lane (memWrite w' 0 n v) j := by
  have hwritten : ∀ d, lane (memWrite d 0 n v) j = byteOf v (n - 1 - j) := fun d => by
    simpa using lane_memWrite_inside d 0 n v j (by omega) hj
  rw [hwritten w, hwritten w']

/-- A varint has at most the eight lanes of DOUT (40_varint.md R61). -/
theorem encodedLength_le (v : Nat) : encodedLength v ≤ 8 := by
  have hmem := encodedLength_mem v
  simp at hmem
  omega

/-- The lanes a successful encode reports are lanes it wrote (40_varint.md R64, 41_packet_number.md R86). -/
theorem complete_memWrite_sameWrittenLanes {n : Nat} (v : Nat) (s s' : State) (hn : n ≤ 8) :
    SameWrittenLanes (complete n 0 { s with dout := memWrite s.dout 0 n v })
      (complete n 0 { s' with dout := memWrite s'.dout 0 n v }) := by
  intro j hj
  have hlt : j < n := by
    simp at hj
    omega
  exact lane_memWrite_congr s.dout s'.dout v hn hlt

/-- Two commands whose operand checks answer alike fail alike or succeed alike: a relation that holds of their errors
and of their successes holds of their outcomes. -/
theorem completions_related {R : State → State → Prop} {r r' : Except ErrorKind Nat} {t t' : State}
    {fail fail' : ErrorKind → State} {done done' : Nat → State} (hr : r = r')
    (h : (∃ k, r = .error k ∧ t = fail k) ∨ ∃ n, r = .ok n ∧ t = done n)
    (h' : (∃ k, r' = .error k ∧ t' = fail' k) ∨ ∃ n, r' = .ok n ∧ t' = done' n)
    (hfail : ∀ k, R (fail k) (fail' k)) (hdone : ∀ n, r = .ok n → R (done n) (done' n)) : R t t' := by
  subst hr
  cases r with
  | error k =>
    obtain rfl : t = fail k := by simpa using h
    obtain rfl : t' = fail' k := by simpa using h'
    exact hfail k
  | ok n =>
    obtain rfl : t = done n := by simpa using h
    obtain rfl : t' = done' n := by simpa using h'
    exact hdone n rfl

/-! ### One command on two states -/

section
variable {s s' t t' : State}

/-- VLEN depends on VAL only (40_varint.md R63). -/
theorem exec_vlen_congr (hval : s.val = s'.val) (h : exec .vlen s = .next t) (h' : exec .vlen s' = .next t') :
    SameCompletion t t' :=
  completions_related (by rw [hval]) (exec_vlen_cases h) (exec_vlen_cases h')
    (fun k => raise_sameCompletion k s s') (fun v _ => complete_sameCompletion (encodedLength v) 0 s s')

/-- VENC depends on VAL only (40_varint.md R64). -/
theorem exec_venc_congr (hval : s.val = s'.val) (h : exec .venc s = .next t) (h' : exec .venc s' = .next t') :
    SameCompletion t t' ∧ SameWrittenLanes t t' :=
  completions_related (R := fun a b => SameCompletion a b ∧ SameWrittenLanes a b)
    (by rw [hval]) (exec_venc_cases h) (exec_venc_cases h')
    (fun k => ⟨raise_sameCompletion k s s', raise_sameWrittenLanes k s s'⟩)
    (fun v _ => ⟨complete_sameCompletion (encodedLength v) 0 _ _,
      complete_memWrite_sameWrittenLanes (varintField v) s s' (encodedLength_le v)⟩)

/-- VENC0 depends on no register (40_varint.md R65). -/
theorem exec_venc0_congr (h : exec .venc0 s = .next t) (h' : exec .venc0 s' = .next t') :
    SameCompletion t t' ∧ SameWrittenLanes t t' := by
  rw [exec_venc0_cases h, exec_venc0_cases h']
  exact ⟨complete_sameCompletion 1 0 _ _, complete_memWrite_sameWrittenLanes 0 s s' (by decide)⟩

/-- PNENC depends on VAL and REF only (41_packet_number.md R86). -/
theorem exec_pnenc_congr (hval : s.val = s'.val) (href : s.ref = s'.ref) (h : exec .pnenc s = .next t)
    (h' : exec .pnenc s' = .next t') : SameCompletion t t' ∧ SameWrittenLanes t t' := by
  have hcases := exec_pnenc_cases h'
  rw [← hval] at hcases
  refine completions_related (R := fun a b => SameCompletion a b ∧ SameWrittenLanes a b)
    (by rw [href]) (exec_pnenc_cases h) hcases
    (fun k => ⟨raise_sameCompletion k s s', raise_sameWrittenLanes k s s'⟩) (fun L hL => ?_)
  obtain ⟨-, -, -, -, -, hle, -⟩ := pnencLength_eq_ok hL
  exact ⟨complete_sameCompletion L 0 _ _, complete_memWrite_sameWrittenLanes _ s s' (by omega)⟩

/-- VDEC depends on DIN and REM only (40_varint.md R66). -/
theorem exec_vdec_congr (hdin : s.din = s'.din) (hrem : s.rem = s'.rem) (h : exec .vdec s = .next t)
    (h' : exec .vdec s' = .next t') : SameCompletion t t' ∧ t.rem = t'.rem ∧ SameResult t t' := by
  have hcases := exec_vdec_cases h'
  rw [← hdin, ← hrem] at hcases
  obtain ⟨hshort, rfl⟩ | ⟨hfits, rfl⟩ := exec_vdec_cases h
  · obtain ⟨-, rfl⟩ | ⟨hfits', -⟩ := hcases
    · exact ⟨raise_sameCompletion _ s s', hrem, raise_sameResult _ s s'⟩
    · omega
  · obtain ⟨hshort', -⟩ | ⟨-, rfl⟩ := hcases
    · omega
    · exact ⟨complete_sameCompletion _ _ _ _, rfl, fun _ => rfl⟩

/-- PNDEC depends on DIN, LEN and REF only (41_packet_number.md R87). -/
theorem exec_pndec_congr (hdin : s.din = s'.din) (hlen : s.len = s'.len) (href : s.ref = s'.ref)
    (h : exec .pndec s = .next t) (h' : exec .pndec s' = .next t') : SameCompletion t t' ∧ SameResult t t' := by
  have hcases := exec_pndec_cases h'
  rw [← hdin, ← hlen, ← href] at hcases
  obtain ⟨hbad, rfl⟩ | ⟨hlo, hhi, hillegal, rfl⟩ | ⟨hlo, hhi, hmin, hmax, rfl⟩ := exec_pndec_cases h
  · obtain rfl : t' = raise .invalidLength s' := by tauto
    exact ⟨raise_sameCompletion _ s s', raise_sameResult _ s s'⟩
  · obtain rfl : t' = raise .invalidValue s' := by tauto
    exact ⟨raise_sameCompletion _ s s', raise_sameResult _ s s'⟩
  · obtain ⟨hbad, -⟩ | ⟨-, -, hillegal, -⟩ | ⟨-, -, -, -, rfl⟩ := hcases
    · exact absurd ⟨hlo, hhi⟩ hbad
    · exact absurd ⟨hmin, hmax⟩ hillegal
    · exact ⟨complete_sameCompletion _ _ _ _, fun _ => rfl⟩

end

/-- Settles O39: command by command, the operand check answers alike on both states, and what is then written is
computed from the operands. -/
theorem outcomeDependsOnTheOperandsOnly : Obligations.OutcomeDependsOnTheOperandsOnly := by
  unfold Obligations.OutcomeDependsOnTheOperandsOnly
  intro i s s' t t' hagree h h'
  cases i with
  | vlen =>
    obtain ⟨hstatus, holen, hconsumed⟩ := exec_vlen_congr hagree h h'
    exact ⟨hstatus, holen, hconsumed, by simp⟩
  | venc =>
    obtain ⟨⟨hstatus, holen, hconsumed⟩, hlanes⟩ := exec_venc_congr hagree h h'
    exact ⟨hstatus, holen, hconsumed, by simp, by simp, fun _ => hlanes⟩
  | venc0 =>
    obtain ⟨⟨hstatus, holen, hconsumed⟩, hlanes⟩ := exec_venc0_congr h h'
    exact ⟨hstatus, holen, hconsumed, by simp, by simp, fun _ => hlanes⟩
  | vdec =>
    obtain ⟨hdin, hrem⟩ := hagree
    obtain ⟨⟨hstatus, holen, hconsumed⟩, hrem', hres⟩ := exec_vdec_congr hdin hrem h h'
    exact ⟨hstatus, holen, hconsumed, fun _ => hrem', fun _ => hres, by simp⟩
  | pnenc =>
    obtain ⟨hval, href⟩ := hagree
    obtain ⟨⟨hstatus, holen, hconsumed⟩, hlanes⟩ := exec_pnenc_congr hval href h h'
    exact ⟨hstatus, holen, hconsumed, by simp, by simp, fun _ => hlanes⟩
  | pndec =>
    obtain ⟨hdin, hlen, href⟩ := hagree
    obtain ⟨⟨hstatus, holen, hconsumed⟩, hres⟩ := exec_pndec_congr hdin hlen href h h'
    exact ⟨hstatus, holen, hconsumed, by simp, fun _ => hres, by simp⟩

end Sys2Proof.Machine
end

section
/-! PROOFS. The host's actions on the registers: writes, reads and reset (10_state.md R12, R23, R24, R29). -/

namespace Sys2Proof.Machine

/-! ### What one action of the host does (10_state.md R10) -/

/-- A write to a register other than `CMD` stores its value and does nothing more (10_state.md R23). -/
theorem perform_write_of_ne_cmd {r : Reg} (hr : r ≠ .cmd) (v : BitVec r.width) (s : State) :
    perform (.write r v) s = .next (storeRegister r v s) := by
  cases r with
  | cmd => exact absurd rfl hr
  | _ => rfl

@[simp] theorem perform_read (r : Reg) (s : State) :
    perform (.read r) s = .next { s with reads := ⟨r, readRegister r s⟩ :: s.reads } := rfl

@[simp] theorem perform_reset (s : State) : perform .reset s = .next (resetRegisters s) := rfl

/-! ### Registers by number (10_state.md R11, R24) -/

@[simp] theorem Reg.number_ofNumber (n : Nat) : (Reg.ofNumber n).number = n := by
  unfold Reg.ofNumber
  split <;> rfl

/-- Only the registers numbered 2 to 6 are host-writable (10_state.md R11, R24); `CMD` stores nothing (R12). -/
theorem storeRegister_eq_self {r : Reg} (hr : r.number < 2 ∨ 6 < r.number) (v : BitVec r.width) (s : State) :
    storeRegister r v s = s := by
  cases r with
  | val | ref | len | rem | din => simp [Reg.number] at hr
  | _ => rfl

/-- `CMD` and the unassigned numbers read 0 (10_state.md R12, R24). -/
theorem readRegister_toNat_eq_zero {r : Reg} (hr : r.number = 0 ∨ 10 < r.number) (s : State) :
    (readRegister r s).toNat = 0 := by
  cases r with
  | cmd => rfl
  | unassigned k => rfl
  | _ => simp [Reg.number] at hr

/-- Settles O1: the reset event gives every register its value in the starting state, which is the reset column. -/
theorem resetRestoresEveryRegister : Obligations.ResetRestoresEveryRegister := by
  unfold Obligations.ResetRestoresEveryRegister
  refine ⟨fun s => ⟨resetRegisters s, perform_reset s, ?_⟩, ?_⟩ <;> simp [State.reset]

/-- Settles O41: a write to a host-writable register is `storeRegister`, a read adds its answer to `reads` only. -/
theorem hostAccessIsWholeRegister : Obligations.HostAccessIsWholeRegister := by
  unfold Obligations.HostAccessIsWholeRegister
  intro s
  have hread : ∀ r, ∃ t, perform (.read r) s = .next t ∧ { t with reads := s.reads } = s :=
    fun r => ⟨_, perform_read r s, rfl⟩
  have hwrite : ∀ (r : Reg) (v : BitVec r.width), r ≠ .cmd →
      perform (.write r v) s = .next (storeRegister r v s) := fun r v hr => perform_write_of_ne_cmd hr v s
  exact ⟨fun v => hwrite .val v (by decide), fun v => hwrite .ref v (by decide), fun v => hwrite .len v (by decide),
    fun v => hwrite .rem v (by decide), fun v => hwrite .din v (by decide), hread,
    rfl, rfl, rfl, rfl, rfl, rfl, rfl, rfl, rfl, rfl⟩

/-- Settles O42: by the register's number, a write to it stores nothing, and `CMD` and the unassigned numbers read 0. -/
theorem otherHostAccessesAreIgnored : Obligations.OtherHostAccessesAreIgnored := by
  unfold Obligations.OtherHostAccessesAreIgnored
  intro s n
  refine ⟨fun hn v => ?_, fun hn => readRegister_toNat_eq_zero (by simpa using hn) s⟩
  have hne : Reg.ofNumber n ≠ .cmd := by
    intro hcmd
    have hzero : n = 0 := by simpa [hcmd, Reg.number] using (Reg.number_ofNumber n).symm
    omega
  have hignored : (Reg.ofNumber n).number < 2 ∨ 6 < (Reg.ofNumber n).number := by
    rw [Reg.number_ofNumber]
    omega
  rw [perform_write_of_ne_cmd hne, storeRegister_eq_self hignored]

end Sys2Proof.Machine
end

section
/-! PROOFS. The decoder and the opcode map (30_encoding.md R46). -/

namespace Sys2Proof

/-- Every row of the opcode map compares the whole word with the encoding of its command (30_encoding.md R46). -/
theorem opcodeTable_row {r : OpcodeRow} (hr : r ∈ opcodeTable) : r.mask = 0xff ∧ r.value = encode r.instr := by
  have hrows : ∀ r ∈ opcodeTable, r.mask = 0xff ∧ r.value = encode r.instr := by decide
  exact hrows r hr

@[simp] theorem decode_encode (i : Instr) : decode (encode i) = .ok i := by
  cases i <;> rfl

/-- The row that the decoder finds is the one whose match value is the word (30_encoding.md R46). -/
theorem eq_encode_of_decode {w : Byte} {i : Instr} (h : decode w = .ok i) : w = encode i := by
  unfold decode at h
  split at h
  case h_1 r hfound =>
    obtain ⟨hmask, hvalue⟩ := opcodeTable_row (List.mem_of_find?_eq_some hfound)
    have hmatch : w &&& r.mask = r.value := by simpa using List.find?_some hfound
    obtain rfl : r.instr = i := by simpa using h
    calc w = w &&& r.mask := by rw [hmask]; exact BitVec.and_allOnes.symm
      _ = encode r.instr := by rw [hmatch, hvalue]
  case h_2 => cases h

theorem decode_eq_ok_iff {w : Byte} {i : Instr} : decode w = .ok i ↔ w = encode i :=
  ⟨eq_encode_of_decode, by rintro rfl; exact decode_encode i⟩

/-- Settles O8: a word decodes to a command exactly when it is the command's encoding, and the six encodings are the
six words of the map. -/
theorem decoderFollowsTheOpcodeMap : Obligations.DecoderFollowsTheOpcodeMap := by
  unfold Obligations.DecoderFollowsTheOpcodeMap
  exact fun w => ⟨decode_eq_ok_iff, decode_eq_ok_iff, decode_eq_ok_iff, decode_eq_ok_iff, decode_eq_ok_iff,
    decode_eq_ok_iff⟩

end Sys2Proof
end

section
/-! PROOFS. The VarInt codec: the length and the bytes VENC chooses, and what VDEC reads back (40_varint.md). -/

namespace Sys2Proof.Machine

/-! ### What a command answers, from what its operand check answers -/

/-- Every command completes (60_exceptions.md R100, 70_reset_and_hazards.md R133). -/
theorem exec_completes (i : Instr) (s : State) : ∃ t, exec i s = .next t := by
  cases i with
  | vlen => simp only [exec, execVlen]; split <;> exact ⟨_, rfl⟩
  | venc => simp only [exec, execVenc]; split <;> exact ⟨_, rfl⟩
  | venc0 => exact ⟨_, rfl⟩
  | vdec => simp only [exec, execVdec]; split_ifs <;> exact ⟨_, rfl⟩
  | pnenc => simp only [exec, execPnenc]; split <;> exact ⟨_, rfl⟩
  | pndec => simp only [exec, execPndec]; split_ifs <;> exact ⟨_, rfl⟩

section
variable {s : State} {k : ErrorKind} {v n : Nat}

theorem exec_vlen_of_error (h : varintOperand s.val.toInt = .error k) : exec .vlen s = .next (raise k s) := by
  obtain ⟨t, ht⟩ := exec_completes .vlen s
  obtain rfl : t = raise k s := by simpa [h] using exec_vlen_cases ht
  exact ht

theorem exec_vlen_of_ok (h : varintOperand s.val.toInt = .ok v) :
    exec .vlen s = .next (complete (encodedLength v) 0 s) := by
  obtain ⟨t, ht⟩ := exec_completes .vlen s
  obtain rfl : t = complete (encodedLength v) 0 s := by simpa [h] using exec_vlen_cases ht
  exact ht

theorem exec_venc_of_error (h : varintOperand s.val.toInt = .error k) : exec .venc s = .next (raise k s) := by
  obtain ⟨t, ht⟩ := exec_completes .venc s
  obtain rfl : t = raise k s := by simpa [h] using exec_venc_cases ht
  exact ht

theorem exec_venc_of_ok (h : varintOperand s.val.toInt = .ok v) :
    exec .venc s = .next (complete (encodedLength v) 0
      { s with dout := memWrite s.dout 0 (encodedLength v) (varintField v) }) := by
  obtain ⟨t, ht⟩ := exec_completes .venc s
  obtain rfl : t = complete _ 0 _ := by simpa [h] using exec_venc_cases ht
  exact ht

theorem exec_vdec_of_short (h : s.rem.toNat < announcedLength (lane s.din 0)) :
    exec .vdec s = .next (raise .truncated s) := by
  obtain ⟨t, ht⟩ := exec_completes .vdec s
  obtain ⟨-, rfl⟩ | ⟨hfits, -⟩ := exec_vdec_cases ht
  · exact ht
  · omega

/-- A budget that covers the announced length: the value without its two class bits, the budget charged
(40_varint.md R66). -/
theorem exec_vdec_of_fits (hn : announcedLength (lane s.din 0) = n) (h : n ≤ s.rem.toNat) :
    exec .vdec s = .next (succeeded 0 (BitVec.ofNat 4 n)
      { s with
        rem := BitVec.ofNat 16 (s.rem.toNat - n)
        res := BitVec.ofNat 64 (memRead s.din 0 n % 2 ^ (8 * n - 2)) }) := by
  subst hn
  obtain ⟨t, ht⟩ := exec_completes .vdec s
  obtain ⟨hshort, -⟩ | ⟨-, rfl⟩ := exec_vdec_cases ht
  · omega
  · rw [ht, complete_eq_succeeded, ← Nat.cast_sub h, zext_natCast, zext_natCast]
    rfl

end

/-! ### The domain of varint values (40_varint.md R60) -/

section
variable {v : Int}

theorem varintOperand_of_negative (h : v < 0) : varintOperand v = .error .invalidValue :=
  varintOperand_eq_error.2 (.inl ⟨h, rfl⟩)

theorem varintOperand_of_large (h : 4611686018427387903 < v) : varintOperand v = .error .valueTooLarge :=
  varintOperand_eq_error.2 (.inr ⟨h, rfl⟩)

theorem varintOperand_of_legal (h0 : 0 ≤ v) (h1 : v ≤ 4611686018427387903) : varintOperand v = .ok v.toNat :=
  varintOperand_eq_ok.2 ⟨h0, h1, (Int.toNat_of_nonneg h0).symm⟩

/-- The class of a legal value is the smallest that covers it, over the integers (40_varint.md R61). -/
theorem lengthClass_covers (h0 : 0 ≤ v) (h1 : v ≤ 4611686018427387903) :
    lengthClass v.toNat ≤ 3 ∧ v < 2 ^ (8 * 2 ^ lengthClass v.toNat - 2) ∧
      ∀ j < lengthClass v.toNat, 2 ^ (8 * 2 ^ j - 2) ≤ v := by
  obtain ⟨n, rfl⟩ := Int.eq_ofNat_of_zero_le h0
  obtain ⟨hclass, hcovers, hleast⟩ := lengthClass_spec n (by omega)
  exact ⟨hclass, by exact_mod_cast hcovers, fun j hj => by exact_mod_cast hleast j hj⟩

end

theorem toInt_neg_iff_bit63 (w : Word) : w.toInt < 0 ↔ w.getLsbD 63 = true := by
  have hmsb : w.msb = w.getLsbD 63 := BitVec.msb_eq_getLsbD_last w
  rw [← hmsb, BitVec.msb_eq_toInt, decide_eq_true_iff]

/-- A value with bit 63 clear is above the domain exactly when bit 62 is set (40_varint.md R60). -/
theorem varintMax_lt_iff_bit62 {w : Word} (h : w.getLsbD 63 = false) :
    4611686018427387903 < w.toInt ↔ w.getLsbD 62 = true := by
  have hnonneg : ¬ w.toInt < 0 := by rw [toInt_neg_iff_bit63, h]; decide
  have hbit : w.getLsbD 62 = decide (w.toNat / 2 ^ 62 % 2 = 1) := Nat.testBit_eq_decide_div_mod_eq
  have hint := BitVec.toInt_eq_toNat_cond w
  rw [hbit, decide_eq_true_iff]
  split at hint <;> omega

/-! ### The bytes of a written value (00_scope.md R4) -/

section
variable {n j : Nat}

theorem lane_memWrite_toNat (w : Word) (v : Nat) (hn : n ≤ 8) (hj : j < n) :
    (lane (memWrite w 0 n v) j).toNat = v / 2 ^ (8 * (n - 1 - j)) % 256 := by
  rw [← byteOf_toNat, ← lane_memWrite_inside w 0 n v j (by omega) hj, Nat.zero_add]

theorem lane_memWrite_above (w : Word) (v : Nat) (hn : n ≤ 8) (hnj : n ≤ j) (hj : j < 8) :
    lane (memWrite w 0 n v) j = lane w j :=
  lane_memWrite_outside w 0 n v j (by omega) hj (.inr (by omega))

end

/-! ### VLEN, VENC and VENC0 -/

/-- Settles O10: the operand's check decides, and the class of a legal value is the smallest that covers it. -/
theorem vlenReportsTheSmallestClass : Obligations.VlenReportsTheSmallestClass := by
  unfold Obligations.VlenReportsTheSmallestClass
  refine fun s => ⟨fun h => exec_vlen_of_error (varintOperand_of_negative h),
    fun h => exec_vlen_of_error (varintOperand_of_large h), fun h0 h1 => ?_⟩
  obtain ⟨hclass, hcovers, hleast⟩ := lengthClass_covers h0 h1
  refine ⟨lengthClass s.val.toInt.toNat, hclass, hcovers, hleast, ?_⟩
  rw [exec_vlen_of_ok (varintOperand_of_legal h0 h1), complete_eq_succeeded]
  rfl

/-- Settles O11: the window VENC leaves is `MemWrite` of the wire integer, read back lane by lane. -/
theorem vencWritesTheVarint : Obligations.VencWritesTheVarint := by
  unfold Obligations.VencWritesTheVarint
  refine fun s => ⟨fun h => exec_venc_of_error (varintOperand_of_negative h),
    fun h => exec_venc_of_error (varintOperand_of_large h), fun h0 h1 => ?_⟩
  obtain ⟨hclass, hcovers, hleast⟩ := lengthClass_covers h0 h1
  have hexec := exec_venc_of_ok (varintOperand_of_legal h0 h1)
  have hfits := encodedLength_le s.val.toInt.toNat
  have hcast := Int.toNat_of_nonneg h0
  generalize s.val.toInt.toNat = v at *
  refine ⟨lengthClass v, memWrite s.dout 0 (encodedLength v) (varintField v), hclass, hcovers, hleast,
    fun j hj => ?_, fun j hlen hj => lane_memWrite_above _ _ hfits hlen hj, ?_⟩
  · rw [lane_memWrite_toNat _ _ hfits hj, ← hcast]
    simp [varintField, encodedLength]
  · rw [hexec, complete_eq_succeeded]
    rfl

/-- Settles O12: bits 63 and 62 say in which part of the domain VAL lies, and what VLEN and VENC do there is known. -/
theorem varintDomainInRegisterBits : Obligations.VarintDomainInRegisterBits := by
  unfold Obligations.VarintDomainInRegisterBits
  intro s
  obtain ⟨hvlenNeg, hvlenLarge, hvlenOk⟩ := vlenReportsTheSmallestClass s
  obtain ⟨hvencNeg, hvencLarge, hvencOk⟩ := vencWritesTheVarint s
  refine ⟨fun h63 => ?_, fun h63 h62 => ?_, fun h63 h62 => ?_⟩
  · have hneg := (toInt_neg_iff_bit63 s.val).2 h63
    exact ⟨hvlenNeg hneg, hvencNeg hneg⟩
  · have hlarge := (varintMax_lt_iff_bit62 h63).2 h62
    exact ⟨hvlenLarge hlarge, hvencLarge hlarge⟩
  · have h0 : 0 ≤ s.val.toInt := by rw [← not_lt, toInt_neg_iff_bit63, h63]; decide
    have h1 : s.val.toInt ≤ 4611686018427387903 := by rw [← not_lt, varintMax_lt_iff_bit62 h63, h62]; decide
    obtain ⟨_, -, -, -, hvlen⟩ := hvlenOk h0 h1
    obtain ⟨_, _, -, -, -, -, -, hvenc⟩ := hvencOk h0 h1
    exact ⟨_, _, hvlen, rfl, hvenc, rfl⟩

/-- Settles O14: VENC0 is `MemWrite` of one zero byte, which is VENC's at the value 0. -/
theorem venc0WritesTheZeroByte : Obligations.Venc0WritesTheZeroByte := by
  unfold Obligations.Venc0WritesTheZeroByte
  refine fun s => ⟨⟨memWrite s.dout 0 1 0, ?_, fun j h1 hj => lane_memWrite_above _ _ (by decide) h1 hj, rfl⟩, ?_⟩
  · exact lane_memWrite_inside s.dout 0 1 0 0 (by decide) (by decide)
  · intro t ht
    have hvenc := exec_venc_of_ok (s := { s with val := 0 }) (varintOperand_of_legal (v := 0) (by decide) (by decide))
    cases hvenc.symm.trans ht
    rfl

/-! ### VDEC -/

/-- R62's table of first bytes: the value of the varint whose bytes are `b 0`, `b 1`, … (40_varint.md R62). -/
def tableValue (b : Nat → Nat) : Nat :=
  if b 0 < 0x40 then b 0
  else if b 0 < 0x80 then (b 0 - 0x40) * 2 ^ 8 + b 1
  else if b 0 < 0xc0 then (b 0 - 0x80) * 2 ^ 24 + b 1 * 2 ^ 16 + b 2 * 2 ^ 8 + b 3
  else (b 0 - 0xc0) * 2 ^ 56 + b 1 * 2 ^ 48 + b 2 * 2 ^ 40 + b 3 * 2 ^ 32 + b 4 * 2 ^ 24 +
    b 5 * 2 ^ 16 + b 6 * 2 ^ 8 + b 7

/-- The announced lanes without the two class bits are the value of the table's row (40_varint.md R62). -/
theorem memRead_mod_eq_tableValue {w : Word} {b : Nat → Nat} (hb : ∀ j, b j = (lane w j).toNat) :
    memRead w 0 (2 ^ (b 0 / 64)) % 2 ^ (8 * 2 ^ (b 0 / 64) - 2) = tableValue b := by
  have hbyte : ∀ j, b j < 256 := fun j => hb j ▸ (lane w j).isLt
  have h0 := hbyte 0
  have h1 := hbyte 1
  have h2 := hbyte 2
  have h3 := hbyte 3
  unfold tableValue
  split_ifs with hclass0 hclass1 hclass2
  · rw [show b 0 / 64 = 0 by omega]
    change memRead w 0 1 % 2 ^ 6 = _
    rw [memRead_succ w 0 0, memRead_zero, Nat.zero_mul, Nat.zero_add, Nat.zero_add, ← hb]
    omega
  · rw [show b 0 / 64 = 1 by omega]
    change memRead w 0 2 % 2 ^ 14 = _
    simp only [memRead_succ, memRead_zero, Nat.zero_mul, Nat.zero_add, ← hb]
    omega
  · rw [show b 0 / 64 = 2 by omega]
    change memRead w 0 4 % 2 ^ 30 = _
    simp only [memRead_succ, memRead_zero, Nat.zero_mul, Nat.zero_add, ← hb]
    omega
  · rw [show b 0 / 64 = 3 by omega]
    change memRead w 0 8 % 2 ^ 62 = _
    simp only [memRead_succ, memRead_zero, Nat.zero_mul, Nat.zero_add, ← hb]
    have h4 := hbyte 4
    have h5 := hbyte 5
    have h6 := hbyte 6
    have h7 := hbyte 7
    omega

/-- Settles O15: VDEC reads the length the first byte announces, and what it reads is R62's table. -/
theorem vdecDecodesEachClass : Obligations.VdecDecodesEachClass := by
  unfold Obligations.VdecDecodesEachClass
  intro s b hb
  have hlen : announcedLength (lane s.din 0) = 2 ^ (b 0 / 64) := by rw [announcedLength_eq, hb]
  refine ⟨fun hshort => exec_vdec_of_short (by rwa [hlen]), fun hfits => ?_⟩
  rw [exec_vdec_of_fits hlen hfits, memRead_mod_eq_tableValue hb]
  rfl

/-- The wire integer of the value `v` in class `k`, which need not be the smallest (40_varint.md R62). -/
def wireInteger (k v : Nat) : Nat := k * 2 ^ (8 * 2 ^ k - 2) + v

/-- VENC's field is the wire integer in the smallest class (40_varint.md R64). -/
theorem varintField_eq_wireInteger (v : Nat) : varintField v = wireInteger (lengthClass v) v := rfl

section
variable {k v : Nat}

theorem wireInteger_mod (hv : v < 2 ^ (8 * 2 ^ k - 2)) : wireInteger k v % 2 ^ (8 * 2 ^ k - 2) = v := by
  rw [wireInteger, Nat.mul_add_mod_self_right, Nat.mod_eq_of_lt hv]

theorem wireInteger_div (hv : v < 2 ^ (8 * 2 ^ k - 2)) : wireInteger k v / 2 ^ (8 * 2 ^ k - 2) = k := by
  rw [wireInteger, Nat.mul_comm, Nat.mul_add_div (Nat.two_pow_pos _), Nat.div_eq_of_lt hv, Nat.add_zero]

/-- The wire integer fits its bytes: the class takes the two bits above the payload (40_varint.md R62). -/
theorem wireInteger_lt (hk : k ≤ 3) (hv : v < 2 ^ (8 * 2 ^ k - 2)) : wireInteger k v < 2 ^ (8 * 2 ^ k) := by
  have hpos := Nat.two_pow_pos k
  have hsplit : 2 ^ (8 * 2 ^ k) = 4 * 2 ^ (8 * 2 ^ k - 2) := by
    rw [show 4 = 2 ^ 2 from rfl, ← pow_add, show 2 + (8 * 2 ^ k - 2) = 8 * 2 ^ k by omega]
  have hdiv := wireInteger_div hv
  rw [hsplit, ← Nat.div_lt_iff_lt_mul (Nat.two_pow_pos _)]
  omega

/-- A first byte taken from a wire integer announces the length of its class (40_varint.md R62). -/
theorem announcedLength_wireInteger {b : Byte} (hk : k ≤ 3) (hv : v < 2 ^ (8 * 2 ^ k - 2))
    (hb : b = byteOf (wireInteger k v) (2 ^ k - 1)) : announcedLength b = 2 ^ k := by
  have hpos := Nat.two_pow_pos k
  have hfirst : wireInteger k v / 2 ^ (8 * (2 ^ k - 1)) < 256 := by
    rw [Nat.div_lt_iff_lt_mul (Nat.two_pow_pos _), show 256 = 2 ^ 8 from rfl, ← pow_add,
      show 8 + 8 * (2 ^ k - 1) = 8 * 2 ^ k by omega]
    exact wireInteger_lt hk hv
  have hclass : b.toNat / 64 = k := by
    rw [hb, byteOf_toNat, Nat.mod_eq_of_lt hfirst, Nat.div_div_eq_div_mul, show 64 = 2 ^ 6 from rfl, ← pow_add,
      show 8 * (2 ^ k - 1) + 6 = 8 * 2 ^ k - 2 by omega, wireInteger_div hv]
  rw [announcedLength_eq, hclass]

/-- VDEC gives back the value of the wire integer its lanes hold (40_varint.md R66, R67). -/
theorem exec_vdec_of_wireInteger {s : State} (hk : k ≤ 3) (hv : v < 2 ^ (8 * 2 ^ k - 2))
    (hrem : 2 ^ k ≤ s.rem.toNat)
    (hlanes : ∀ j < 2 ^ k, lane s.din j = byteOf (wireInteger k v) (2 ^ k - 1 - j)) :
    exec .vdec s = .next (succeeded 0 (BitVec.ofNat 4 (2 ^ k))
      { s with rem := BitVec.ofNat 16 (s.rem.toNat - 2 ^ k), res := BitVec.ofNat 64 v }) := by
  have hlen := announcedLength_wireInteger hk hv (hlanes 0 (Nat.two_pow_pos k))
  have hread : memRead s.din 0 (2 ^ k) = wireInteger k v :=
    memRead_of_bytes _ _ _ _ (wireInteger_lt hk hv) (by simpa using hlanes)
  rw [exec_vdec_of_fits hlen hrem, hread, wireInteger_mod hv]

end

/-- Settles O16: the wire integer of any class that holds the value is read back whole. -/
theorem vdecAcceptsEveryClass : Obligations.VdecAcceptsEveryClass := by
  unfold Obligations.VdecAcceptsEveryClass
  intro s k v hk hv hrem hlanes
  refine exec_vdec_of_wireInteger hk hv hrem fun j hj => BitVec.eq_of_toNat_eq ?_
  rw [hlanes j hj, byteOf_toNat, wireInteger]

end Sys2Proof.Machine
end

section
/-! PROOFS. The packet-number codec: the checks and the length of PNENC, the bytes it writes, and what PNDEC
reconstructs (41_packet_number.md). -/

namespace Sys2Proof.Machine

/-! ### What PNENC and PNDEC answer, from what their checks answer -/

section
variable {s : State} {k : ErrorKind} {L : Nat}

theorem exec_pnenc_of_error (h : pnencLength s.val.toInt s.ref.toInt = .error k) :
    exec .pnenc s = .next (raise k s) := by
  obtain ⟨t, ht⟩ := exec_completes .pnenc s
  obtain rfl : t = raise k s := by simpa [h] using exec_pnenc_cases ht
  exact ht

theorem exec_pnenc_of_ok (h : pnencLength s.val.toInt s.ref.toInt = .ok L) :
    exec .pnenc s = .next (complete L 0
      { s with dout := memWrite s.dout 0 L (truncatedField s.val.toInt L) }) := by
  obtain ⟨t, ht⟩ := exec_completes .pnenc s
  obtain rfl : t = complete L 0 _ := by simpa [h] using exec_pnenc_cases ht
  exact ht

theorem exec_pndec_of_badLength (hlen : ¬ (1 ≤ s.len.toNat ∧ s.len.toNat ≤ 4)) :
    exec .pndec s = .next (raise .invalidLength s) := by
  obtain ⟨t, ht⟩ := exec_completes .pndec s
  have hcases := exec_pndec_cases ht
  obtain rfl : t = raise .invalidLength s := by tauto
  exact ht

theorem exec_pndec_of_illegalReference (h1 : 1 ≤ s.len.toNat) (h4 : s.len.toNat ≤ 4)
    (href : ¬ (-1 ≤ s.ref.toInt ∧ s.ref.toInt ≤ 2 ^ 62 - 1)) :
    exec .pndec s = .next (raise .invalidValue s) := by
  obtain ⟨t, ht⟩ := exec_completes .pndec s
  have hcases := exec_pndec_cases ht
  obtain rfl : t = raise .invalidValue s := by tauto
  exact ht

theorem exec_pndec_of_legal (h1 : 1 ≤ s.len.toNat) (h4 : s.len.toNat ≤ 4)
    (hmin : -1 ≤ s.ref.toInt) (hmax : s.ref.toInt ≤ 2 ^ 62 - 1) :
    exec .pndec s = .next (complete 0 s.len.toNat
      { s with res := zext 64 (recovered (memRead s.din 0 s.len.toNat) s.len.toNat s.ref.toInt) }) := by
  obtain ⟨t, ht⟩ := exec_completes .pndec s
  have hcases := exec_pndec_cases ht
  obtain rfl : t = complete 0 s.len.toNat _ := by tauto
  exact ht

end

/-! ### The domains of PNENC's operands (41_packet_number.md R84) -/

section
variable {pn ref : Int}

theorem referenceLegal_eq_false (h : ref < -1 ∨ 2 ^ 62 - 1 < ref) : referenceLegal ref = false := by
  rw [Bool.eq_false_iff, ne_eq, referenceLegal_iff]
  omega

theorem pnencLength_of_negative (h : pn < 0) : pnencLength pn ref = .error .invalidValue := if_pos h

theorem pnencLength_of_illegalReference (h : ref < -1 ∨ 2 ^ 62 - 1 < ref) :
    pnencLength pn ref = .error .invalidValue := by
  simp [pnencLength, referenceLegal_eq_false h]

theorem pnencLength_of_large (h : 2 ^ 62 - 1 < pn) (hmin : -1 ≤ ref) (hmax : ref ≤ 2 ^ 62 - 1) :
    pnencLength pn ref = .error .valueTooLarge := by
  unfold pnencLength
  rw [if_neg (by omega), (referenceLegal_iff ref).2 ⟨hmin, hmax⟩, if_neg (by simp),
    if_pos (by unfold Config.pnMax; omega)]

end

/-! ### The length PNENC chooses (41_packet_number.md R82, R83) -/

section
variable {bound : Nat → Int} {x : Int}

/-- When no bound is above the fourth, no length fits exactly when the fourth does not. -/
theorem leastLength_below_eq_none_iff (hbound : ∀ m ≤ 4, bound m ≤ bound 4) :
    (leastLength fun L => decide (x < bound L)) = none ↔ bound 4 ≤ x := by
  simp only [leastLength_eq_none, decide_eq_false_iff_not, not_lt]
  exact ⟨fun h => h 4 (by decide) (by decide), fun h m _ h4 => (hbound m h4).trans h⟩

theorem leastLength_below_eq_some_iff {L : Nat} : (leastLength fun L => decide (x < bound L)) = some L ↔
    1 ≤ L ∧ L ≤ 4 ∧ x < bound L ∧ ∀ m, 1 ≤ m → m < L → bound m ≤ x := by
  simp only [leastLength_eq_some, decide_eq_true_iff, decide_eq_false_iff_not, not_lt]

end

/-! ### The bytes PNENC writes (41_packet_number.md R81) -/

/-- A byte of the truncated field is the same byte of the packet number (41_packet_number.md R81). -/
theorem truncatedField_byte {pn : Int} {L m : Nat} (h0 : 0 ≤ pn) (hm : m < L) :
    ((truncatedField pn L / 2 ^ (8 * m) % 256 : Nat) : Int) = pn / 2 ^ (8 * m) % 256 := by
  obtain ⟨n, rfl⟩ := Int.eq_ofNat_of_zero_le h0
  have hfield : truncatedField n L = n % 2 ^ (8 * L) := by
    rw [truncatedField]
    norm_cast
  have hsplit : 2 ^ (8 * L) = 2 ^ (8 * m) * 2 ^ (8 * (L - m)) := by
    rw [← pow_add, show 8 * m + 8 * (L - m) = 8 * L by omega]
  have hbyte : 256 ∣ 2 ^ (8 * (L - m)) := pow_dvd_pow 2 (show 8 ≤ 8 * (L - m) by omega)
  rw [hfield, hsplit, Nat.mod_mul_right_div_self, Nat.mod_mod_of_dvd _ hbyte]
  norm_cast

/-- PNENC with a length in hand: the low bytes of `pn` in the lanes below it, the other lanes kept
(41_packet_number.md R86). -/
theorem exec_pnenc_writes_lowBytes {s : State} {L : Nat} (h : pnencLength s.val.toInt s.ref.toInt = .ok L) :
    ∃ d : Word, (∀ j < L, ((lane d j).toNat : Int) = s.val.toInt / 2 ^ (8 * (L - 1 - j)) % 256) ∧
      (∀ j, L ≤ j → j < 8 → lane d j = lane s.dout j) ∧
      exec .pnenc s = .next (succeeded (BitVec.ofNat 4 L) 0 { s with dout := d }) := by
  obtain ⟨h0, -, -, -, -, h4, -⟩ := pnencLength_eq_ok h
  have hfits : L ≤ 8 := by omega
  refine ⟨memWrite s.dout 0 L (truncatedField s.val.toInt L), fun j hj => ?_,
    fun j hlen hj => lane_memWrite_above _ _ hfits hlen hj, ?_⟩
  · rw [lane_memWrite_toNat _ _ hfits hj, truncatedField_byte h0 (by omega)]
  · rw [exec_pnenc_of_ok h, complete_eq_succeeded]
    rfl

/-- PNENC when its length is the least whose bound is above `x`: an error when the largest bound is not, else the low
bytes of `pn` in that many lanes (41_packet_number.md R82, R83, R85). -/
theorem exec_pnenc_of_leastLength_below {s : State} {bound : Nat → Int} {x : Int}
    (hbound : ∀ m ≤ 4, bound m ≤ bound 4)
    (hchoice : pnencLength s.val.toInt s.ref.toInt = lengthOrTooLarge (leastLength fun L => decide (x < bound L))) :
    (bound 4 ≤ x → exec .pnenc s = .next (raise .valueTooLarge s)) ∧
    (x < bound 4 → ∃ (L : Nat) (d : Word), 1 ≤ L ∧ L ≤ 4 ∧ x < bound L ∧ (∀ m, 1 ≤ m → m < L → bound m ≤ x) ∧
      (∀ j < L, ((lane d j).toNat : Int) = s.val.toInt / 2 ^ (8 * (L - 1 - j)) % 256) ∧
      (∀ j, L ≤ j → j < 8 → lane d j = lane s.dout j) ∧
      exec .pnenc s = .next (succeeded (BitVec.ofNat 4 L) 0 { s with dout := d })) := by
  cases hL : leastLength fun L => decide (x < bound L) with
  | none =>
    have hlarge := (leastLength_below_eq_none_iff hbound).1 hL
    exact ⟨fun _ => exec_pnenc_of_error (by rw [hchoice, hL]; rfl), fun hsmall => by omega⟩
  | some L =>
    obtain ⟨h1, h4, hfits, hleast⟩ := leastLength_below_eq_some_iff.1 hL
    have hbelow := hfits.trans_le (hbound L h4)
    obtain ⟨d, hlow, hkept, hexec⟩ := exec_pnenc_writes_lowBytes (s := s) (L := L) (by rw [hchoice, hL]; rfl)
    exact ⟨fun hlarge => by omega, fun _ => ⟨L, d, h1, h4, hfits, hleast, hlow, hkept, hexec⟩⟩

/-- Settles O21: without a reference the bound of a length is on `pn`, and the largest bound is `0xffffffff`. -/
theorem pnencWithoutReference : Obligations.PnencWithoutReference := by
  unfold Obligations.PnencWithoutReference
  intro s href h0 hmax
  have hchoice : pnencLength s.val.toInt s.ref.toInt = lengthOrTooLarge (lengthNoReference s.val.toInt) := by
    rw [href, pnencLength_noReference h0 hmax]
  exact exec_pnenc_of_leastLength_below (bound := fun L => 2 ^ (8 * L) - 1) (by decide) hchoice

/-- Settles O22: with a reference `pn` must be above it, and the bound of a length is on the distance. -/
theorem pnencWithReference : Obligations.PnencWithReference := by
  unfold Obligations.PnencWithReference
  intro s href0 hrefmax h0 hmax
  have hchoice := pnencLength_reference h0 hmax href0 hrefmax
  have habove : s.ref.toInt < s.val.toInt → pnencLength s.val.toInt s.ref.toInt =
      lengthOrTooLarge (lengthForDistance (s.val.toInt - s.ref.toInt)) := fun hlt => by
    rw [hchoice, if_neg (by omega)]
  have hdistance := fun hlt => exec_pnenc_of_leastLength_below (s := s) (bound := fun L => 2 ^ (8 * L - 1))
    (by decide) (habove hlt)
  exact ⟨fun hle => exec_pnenc_of_error (by rw [hchoice, if_pos hle]),
    fun hfar => (hdistance (by omega)).1 hfar, fun hlt hnear => (hdistance hlt).2 hnear⟩

/-- Settles O23: an operand outside its domain decides the check, a negative `pn` first and a large one last. -/
theorem packetNumberOperandDomains : Obligations.PacketNumberOperandDomains := by
  unfold Obligations.PacketNumberOperandDomains
  exact fun s => ⟨fun hneg => exec_pnenc_of_error (pnencLength_of_negative hneg),
    fun href => exec_pnenc_of_error (pnencLength_of_illegalReference href),
    fun hlarge hmin hmax => exec_pnenc_of_error (pnencLength_of_large hlarge hmin hmax),
    fun h1 h4 href => exec_pndec_of_illegalReference h1 h4 (by omega)⟩

/-! ### PNDEC -/

theorem byte_mem_one_to_four_iff (b : Byte) : b ∈ ([1, 2, 3, 4] : List Byte) ↔ 1 ≤ b.toNat ∧ b.toNat ≤ 4 := by
  simp only [List.mem_cons, List.not_mem_nil, or_false]
  bv_omega

/-- Settles O26: the length is tested first, and the two other outcomes leave another STATUS. -/
theorem pndecRejectsOtherLengths : Obligations.PndecRejectsOtherLengths := by
  unfold Obligations.PndecRejectsOtherLengths
  intro s
  rw [byte_mem_one_to_four_iff]
  refine ⟨exec_pndec_of_badLength, fun hlen => ?_⟩
  obtain ⟨t, ht⟩ := exec_completes .pndec s
  refine ⟨t, ht, ?_⟩
  obtain ⟨hbad, -⟩ | ⟨-, -, -, rfl⟩ | ⟨-, -, -, -, rfl⟩ := exec_pndec_cases ht
  · exact absurd hlen hbad
  · rw [raise_status]
    decide
  · rw [complete_status]
    decide

/-- The big-endian reading of the first `n` lanes is the top `8n` bits of the window (00_scope.md R4, 20_memory.md
R32). -/
theorem memRead_eq_div (w : Word) {n : Nat} (hn : n ≤ 8) : memRead w 0 n = w.toNat / 2 ^ (64 - 8 * n) := by
  induction n with
  | zero => simpa using (Nat.div_eq_of_lt w.isLt).symm
  | succ n ih =>
    have hsplit : 2 ^ (64 - 8 * n) = 2 ^ (56 - 8 * n) * 256 := by
      rw [show 64 - 8 * n = 56 - 8 * n + 8 by omega, pow_add]
      norm_num
    rw [memRead_succ, Nat.zero_add, lane_toNat, ih (by omega), hsplit, ← Nat.div_div_eq_div_mul,
      show 64 - 8 * (n + 1) = 56 - 8 * n by omega]
    omega

theorem memRead_eq_ushiftRight (w : Word) {n : Nat} (hn : n ≤ 8) :
    memRead w 0 n = (w >>> (64 - 8 * n)).toNat := by
  rw [memRead_eq_div w hn, BitVec.toNat_ushiftRight, Nat.shiftRight_eq_div_pow]

section
variable {k : Nat} {mask : Word}

theorem toNat_ofNat_two_pow (hk : k < 64) : (BitVec.ofNat 64 (2 ^ k)).toNat = 2 ^ k := by
  rw [BitVec.toNat_ofNat, Nat.mod_eq_of_lt (Nat.pow_lt_pow_right (by omega) hk)]

theorem toNat_ofNat_two_pow_sub_one (hk : k < 64) : (BitVec.ofNat 64 (2 ^ k) - 1).toNat = 2 ^ k - 1 := by
  have hpow := toNat_ofNat_two_pow hk
  have hpos := Nat.two_pow_pos k
  have hle : (1 : Word) ≤ BitVec.ofNat 64 (2 ^ k) := BitVec.le_def.2 (by rw [hpow]; exact hpos)
  rw [BitVec.toNat_sub_of_le hle, hpow]
  rfl

/-- Clearing the low `k` bits is rounding down to a multiple of `2^k` (41_packet_number.md R88). -/
theorem toNat_and_not_lowMask (w : Word) (hmask : mask.toNat = 2 ^ k - 1) :
    (w &&& ~~~mask).toNat = w.toNat / 2 ^ k * 2 ^ k := by
  have hclear : w &&& ~~~mask = w >>> k <<< k := by
    apply BitVec.eq_of_getLsbD_eq
    intro i hi
    have hbit : mask.getLsbD i = decide (i < k) := by
      rw [BitVec.getLsbD, hmask, Nat.testBit_two_pow_sub_one]
    rw [BitVec.getLsbD_and, BitVec.getLsbD_not, hbit, BitVec.getLsbD_shiftLeft, BitVec.getLsbD_ushiftRight]
    by_cases hik : i < k
    · simp [hik]
    · simp [hik, hi, show k + (i - k) = i by omega]
  have hle := Nat.div_mul_le_self w.toNat (2 ^ k)
  rw [hclear, BitVec.toNat_shiftLeft, BitVec.toNat_ushiftRight, Nat.shiftRight_eq_div_pow, Nat.shiftLeft_eq,
    Nat.mod_eq_of_lt (by omega)]

/-- The document's `(expected & ~mask) | truncatedValue` is the integer candidate (41_packet_number.md R88). -/
theorem toNat_candidate (expected : Word) {field : Word} (hmask : mask.toNat = 2 ^ k - 1)
    (hfield : field.toNat < 2 ^ k) :
    (((expected &&& ~~~mask) ||| field).toNat : Int) = expected.toNat - expected.toNat % 2 ^ k + field.toNat := by
  have hsum : ((expected &&& ~~~mask) ||| field).toNat =
      expected.toNat - expected.toNat % 2 ^ k + field.toNat := by
    rw [BitVec.toNat_or, toNat_and_not_lowMask expected hmask, ← Nat.shiftLeft_eq,
      ← Nat.shiftLeft_add_eq_or_of_lt hfield, Nat.shiftLeft_eq, Nat.div_mul_self_eq_mod_sub_self]
  have hle := Nat.mod_le expected.toNat (2 ^ k)
  rw [hsum]
  push_cast [hle]
  rfl

end

/-- The word of the integer that the reconstruction returns, for words that hold its three operands: the moves by a
window may be made on the words (41_packet_number.md R88). -/
theorem zext_reconstruct {expected win candidate : Word} {t len : Nat} {ref : Int}
    (hexpected : ref + 1 = expected.toNat) (hwin : (2 : Int) ^ (8 * len) = win.toNat)
    (hcandidate : (expected.toNat : Int) - expected.toNat % win.toNat + t = candidate.toNat) :
    zext 64 (reconstruct t len ref) =
      if (candidate.toNat : Int) ≤ expected.toNat - win.toNat / 2 ∧ (candidate.toNat : Int) < 2 ^ 62 - win.toNat
        then candidate + win
      else if (candidate.toNat : Int) > expected.toNat + win.toNat / 2 ∧ candidate.toNat ≥ win.toNat
        then candidate - win
      else candidate := by
  simp only [reconstruct, hexpected, hwin, hcandidate, ge_iff_le, Nat.cast_le]
  split_ifs with hup hdown
  · simp [zext, BitVec.ofInt_add]
  · simp [zext, sub_eq_add_neg, BitVec.ofInt_add, BitVec.ofInt_neg]
  · simp

/-- The word after a packet number is the integer after it: nothing wraps (41_packet_number.md R88). -/
theorem toNat_add_one_of_packetNumber {w : Word} (h0 : 0 ≤ w.toInt) (hmax : w.toInt ≤ 2 ^ 62 - 1) :
    w.toInt + 1 = ((w + 1).toNat : Int) := by
  have hint := BitVec.toInt_eq_toNat_cond w
  have hsucc : (w + 1).toNat = (w.toNat + 1) % 2 ^ 64 := BitVec.toNat_add w 1
  split at hint <;> omega

/-- Settles O28: the words hold the integers of the reconstruction, so the formula on them is its result. -/
theorem pndecReconstructs : Obligations.PndecReconstructs := by
  unfold Obligations.PndecReconstructs
  rintro s _ _ _ _ _ h0 hmax h1 h4 rfl rfl rfl rfl rfl
  have hread := memRead_eq_ushiftRight s.din (n := s.len.toNat) (by omega)
  have hfield := hread ▸ memRead_lt s.din 0 s.len.toNat
  have hwin : (2 : Int) ^ (8 * s.len.toNat) = (BitVec.ofNat 64 (2 ^ (8 * s.len.toNat))).toNat := by
    rw [toNat_ofNat_two_pow (by omega)]
    norm_cast
  have hcandidate := toNat_candidate (s.ref + 1) (toNat_ofNat_two_pow_sub_one (by omega)) hfield
  rw [exec_pndec_of_legal h1 h4 (by omega) hmax, recovered, if_neg (by unfold Config.noRef; omega), hread,
    zext_reconstruct (toNat_add_one_of_packetNumber h0 hmax) hwin (hwin ▸ hcandidate.symm), complete_eq_succeeded]
  rfl

/-! ### The frame of the commands (41_packet_number.md R93) -/

/-- Settles O37: an error writes no operand and no result, and a success writes the registers of its command only. -/
theorem commandsNeverWriteTheirOperands : Obligations.CommandsNeverWriteTheirOperands := by
  unfold Obligations.CommandsNeverWriteTheirOperands
  intro i s t h
  cases i with
  | vlen => obtain ⟨k, -, rfl⟩ | ⟨v, -, rfl⟩ := exec_vlen_cases h <;> simp
  | venc => obtain ⟨k, -, rfl⟩ | ⟨v, -, rfl⟩ := exec_venc_cases h <;> simp
  | venc0 =>
    obtain rfl := exec_venc0_cases h
    simp
  | vdec => obtain ⟨-, rfl⟩ | ⟨-, rfl⟩ := exec_vdec_cases h <;> simp
  | pnenc => obtain ⟨k, -, rfl⟩ | ⟨L, -, rfl⟩ := exec_pnenc_cases h <;> simp
  | pndec => obtain ⟨-, rfl⟩ | ⟨-, -, -, rfl⟩ | ⟨-, -, -, -, rfl⟩ := exec_pndec_cases h <;> simp

end Sys2Proof.Machine
end

section
/-! PROOFS. Errors: what an illegal word does, and that a failed command leaves no trace (60_exceptions.md R103, R104,
R107). -/

namespace Sys2Proof.Machine

/-! ### A word written to `CMD`, by what it decodes to (10_state.md R12) -/

section
variable {w : Byte} {s t : State}

theorem issueCommand_of_decode_ok {i : Instr} (h : decode w = .ok i) : issueCommand w s = exec i s := by
  simp [issueCommand, h]

theorem issueCommand_of_decode_error {e : DecodeError} (h : decode w = .error e) :
    issueCommand w s = .next (raise .illegalCommand s) := by
  simp [issueCommand, h]

/-! ### The two ways to complete (60_exceptions.md R100, R103) -/

theorem exec_raises_or_succeeds {i : Instr} (h : exec i s = .next t) : (∃ k, t = raise k s) ∨ t.status = 0x00 := by
  cases i with
  | vlen =>
    obtain ⟨k, -, rfl⟩ | ⟨v, -, rfl⟩ := exec_vlen_cases h
    exacts [.inl ⟨k, rfl⟩, .inr rfl]
  | venc =>
    obtain ⟨k, -, rfl⟩ | ⟨v, -, rfl⟩ := exec_venc_cases h
    exacts [.inl ⟨k, rfl⟩, .inr rfl]
  | venc0 =>
    obtain rfl := exec_venc0_cases h
    exact .inr rfl
  | vdec =>
    obtain ⟨-, rfl⟩ | ⟨-, rfl⟩ := exec_vdec_cases h
    exacts [.inl ⟨.truncated, rfl⟩, .inr rfl]
  | pnenc =>
    obtain ⟨k, -, rfl⟩ | ⟨L, -, rfl⟩ := exec_pnenc_cases h
    exacts [.inl ⟨k, rfl⟩, .inr rfl]
  | pndec =>
    obtain ⟨-, rfl⟩ | ⟨-, -, -, rfl⟩ | ⟨-, -, -, -, rfl⟩ := exec_pndec_cases h
    exacts [.inl ⟨.invalidLength, rfl⟩, .inl ⟨.invalidValue, rfl⟩, .inr rfl]

/-- A word that ends in an error did an error completion and nothing more (60_exceptions.md R103). -/
theorem issueCommand_raises_of_status_ne_ok (h : issueCommand w s = .next t) (hstatus : t.status ≠ 0x00) :
    ∃ k, t = raise k s := by
  obtain ⟨i, -, hexec⟩ | ⟨-, hillegal⟩ := issueCommand_cases w s
  · exact (exec_raises_or_succeeds (hexec ▸ h)).resolve_right hstatus
  · exact ⟨.illegalCommand, by simpa [hillegal] using h.symm⟩

end

/-! ### What an error leaves has no effect on a later command (60_exceptions.md R104) -/

/-- No command reads STATUS, OLEN or CONSUMED, and each of its completions writes all three: the two sides are the same
term once the command is known. -/
theorem exec_raise (i : Instr) (k : ErrorKind) (s : State) : exec i (raise k s) = exec i s := by
  cases i <;> rfl

theorem issueCommand_raise (w : Byte) (k : ErrorKind) (s : State) :
    issueCommand w (raise k s) = issueCommand w s := by
  cases h : decode w with
  | ok i => rw [issueCommand_of_decode_ok h, issueCommand_of_decode_ok h, exec_raise]
  | error e =>
    rw [issueCommand_of_decode_error h, issueCommand_of_decode_error h]
    rfl

/-- Settles O5: a word that decodes is the encoding of a command, hence one of the six. -/
theorem illegalWordRaisesIllegalCommand : Obligations.IllegalWordRaisesIllegalCommand := by
  unfold Obligations.IllegalWordRaisesIllegalCommand
  intro s w hw
  cases h : decode w with
  | ok i =>
    have hsix : ∀ i, encode i ∈ ([0x01, 0x02, 0x03, 0x04, 0x05, 0x06] : List Byte) := fun i => by
      cases i <;> decide
    exact absurd (eq_encode_of_decode h ▸ hsix i) hw
  | error e => exact issueCommand_of_decode_error h

/-- Settles O33: the codes kind by kind, and every word that ends in an error ends in an error completion. -/
theorem errorCompletionWritesThreeRegisters : Obligations.ErrorCompletionWritesThreeRegisters := by
  unfold Obligations.ErrorCompletionWritesThreeRegisters
  refine ⟨fun k s => ?_, fun w s t => issueCommand_raises_of_status_ne_ok⟩
  rw [raise_eq_failed]
  cases k <;> rfl

/-- Settles O36: the failed word did an error completion, which no later word sees. -/
theorem failedCommandLeavesNoTrace : Obligations.FailedCommandLeavesNoTrace := by
  unfold Obligations.FailedCommandLeavesNoTrace
  intro w w' s t h hstatus
  obtain ⟨k, rfl⟩ := issueCommand_raises_of_status_ne_ok h hstatus
  exact issueCommand_raise w' k s

end Sys2Proof.Machine
end

section
/-! PROOFS. Completion: every command and every command word answers a next state (70_reset_and_hazards.md R133). -/

namespace Sys2Proof.Machine

/-- A legal word completes as its command does, and an illegal one completes with an error (60_exceptions.md R107). -/
theorem issueCommand_completes (w : Byte) (s : State) : ∃ t, issueCommand w s = .next t := by
  obtain ⟨i, -, hexec⟩ | ⟨-, hillegal⟩ := issueCommand_cases w s
  · rw [hexec]
    exact exec_completes i s
  · exact ⟨raise .illegalCommand s, hillegal⟩

/-- Settles O6: no command has another outcome than a next state, and a word runs a command or raises an error. -/
theorem everyCommandCompletes : Obligations.EveryCommandCompletes := by
  unfold Obligations.EveryCommandCompletes
  exact ⟨exec_completes, issueCommand_completes⟩

end Sys2Proof.Machine
end

section
/-! PROOFS. VENC's length is VLEN's, and what VENC writes VDEC reads back: the round trip of the varints, the rejection
of their initial parts, and the lanes and the budget that VDEC uses (40_varint.md section 4). -/

namespace Sys2Proof.Machine

/-- What a write to `CMD` that answers `t` did: the command of its word, or the error of an illegal word
(10_state.md R12; 60_exceptions.md R107). -/
theorem issueCommand_eq_next {w : Byte} {s t : State} (h : issueCommand w s = .next t) :
    (∃ i, decode w = .ok i ∧ exec i s = .next t) ∨ t = raise .illegalCommand s := by
  obtain ⟨i, hdecode, hexec⟩ | ⟨-, hillegal⟩ := issueCommand_cases w s
  · exact .inl ⟨i, hdecode, hexec ▸ h⟩
  · rw [hillegal] at h
    cases h
    exact .inr rfl

/-! ### VLEN and VENC -/

/-- Settles O13: the two commands check one operand and complete with one length. -/
theorem vencLengthIsVlenLength : Obligations.VencLengthIsVlenLength := by
  unfold Obligations.VencLengthIsVlenLength
  intro s t t' h h'
  exact completions_related (R := fun a b => a.status = b.status ∧ a.olen = b.olen ∧ a.dout = s.dout) rfl
    (exec_vlen_cases h) (exec_venc_cases h') (fun _ => ⟨rfl, rfl, rfl⟩) (fun _ _ => ⟨rfl, rfl, rfl⟩)

/-! ### The round trip, and a budget below the length -/

/-- A nonnegative register is the word of its integer (00_scope.md section 5.1). -/
theorem ofNat_toNat_toInt {w : Word} (h : 0 ≤ w.toInt) : BitVec.ofNat 64 w.toInt.toNat = w := by
  rw [← zext_natCast, Int.toNat_of_nonneg h]
  exact BitVec.ofInt_toInt

theorem ofNat_four_toNat {n : Nat} (hn : n ≤ 8) : (BitVec.ofNat 4 n).toNat = n := by
  rw [BitVec.toNat_ofNat, Nat.mod_eq_of_lt (by omega)]

theorem zext_four_toNat {n : Nat} (hn : n ≤ 8) : (zext 4 (n : Int)).toNat = n := by
  rw [zext_natCast, ofNat_four_toNat hn]

theorem announcedLength_pos (b : Byte) : 0 < announcedLength b := Nat.two_pow_pos _

/-- A successful VENC took a legal value and left the bytes of its wire integer in the lanes below OLEN
(40_varint.md R64). -/
theorem exec_venc_ok_writes_wireInteger {s t : State} (h : exec .venc s = .next t) (hok : t.status = 0x00) :
    ∃ v : Nat, s.val.toInt = v ∧ lengthClass v ≤ 3 ∧ v < 2 ^ (8 * 2 ^ lengthClass v - 2) ∧
      t.olen = BitVec.ofNat 4 (2 ^ lengthClass v) ∧ t.olen.toNat = 2 ^ lengthClass v ∧
      ∀ j < 2 ^ lengthClass v,
        lane t.dout j = byteOf (wireInteger (lengthClass v) v) (2 ^ lengthClass v - 1 - j) := by
  obtain ⟨k, -, rfl⟩ | ⟨v, hv, rfl⟩ := exec_venc_cases h
  · exact absurd hok (statusOf_ne_ok k)
  · obtain ⟨-, hmax, hval⟩ := varintOperand_eq_ok.1 hv
    obtain ⟨hclass, hcovers, -⟩ := lengthClass_spec v (by omega)
    have hfits := encodedLength_le v
    refine ⟨v, hval, hclass, hcovers, zext_natCast 4 _, zext_four_toNat hfits, fun j hj => ?_⟩
    simpa [varintField_eq_wireInteger, encodedLength] using
      lane_memWrite_inside s.dout 0 (encodedLength v) (varintField v) j (by omega) hj

/-- Settles O19: the lanes VENC wrote are the bytes of the wire integer that VDEC reads back. -/
theorem varintRoundTrip : Obligations.VarintRoundTrip := by
  unfold Obligations.VarintRoundTrip
  intro s h0 hmax
  obtain ⟨t, hvenc, hok⟩ : ∃ t, exec .venc s = .next t ∧ t.status = 0x00 :=
    ⟨_, exec_venc_of_ok (varintOperand_of_legal h0 hmax), rfl⟩
  obtain ⟨v, hval, hclass, hcovers, holen, hlen, hwritten⟩ := exec_venc_ok_writes_wireInteger hvenc hok
  refine ⟨t, hvenc, hok, fun r d hbudget hlanes => ?_⟩
  rw [hlen] at hbudget hlanes ⊢
  rw [exec_vdec_of_wireInteger hclass hcovers hbudget fun j hj => (hlanes j hj).trans (hwritten j hj), holen,
    ← ofNat_toNat_toInt h0, hval]
  rfl

/-- Settles O20: lane 0, when the budget has a byte, still announces the whole length. -/
theorem prefixOfVarintIsTruncated : Obligations.PrefixOfVarintIsTruncated := by
  unfold Obligations.PrefixOfVarintIsTruncated
  intro s t r d h hok hshort hlanes
  obtain ⟨v, -, hclass, hcovers, -, hlen, hwritten⟩ := exec_venc_ok_writes_wireInteger h hok
  rw [hlen] at hshort
  refine exec_vdec_of_short (s := { t with din := d, rem := r }) ?_
  rcases Nat.eq_zero_or_pos r.toNat with hempty | hnonempty
  · simpa [hempty] using announcedLength_pos (lane d 0)
  · have hfirst := (hlanes 0 hnonempty).trans (hwritten 0 (Nat.two_pow_pos _))
    rwa [announcedLength_wireInteger hclass hcovers hfirst]

/-! ### What VDEC reads and what it charges -/

theorem announcedLength_le (b : Byte) : announcedLength b ≤ 8 := by
  have hmem := announcedLength_mem b
  simp at hmem
  omega

/-- Settles O17: too short a budget is decided by REM or with lane 0, and a success reads the announced lanes. -/
theorem vdecDependsOnlyOnItsLanes : Obligations.VdecDependsOnlyOnItsLanes := by
  unfold Obligations.VdecDependsOnlyOnItsLanes
  intro s t d h hagree
  rw [← announcedLength_eq] at hagree
  have hpos := announcedLength_pos (lane s.din 0)
  have hfirst : s.rem = 0 ∨ lane d 0 = lane s.din 0 := by
    obtain hempty | ⟨-, hlane⟩ | hlanes := hagree
    · exact .inl hempty
    · exact .inr hlane
    · exact .inr (hlanes 0 hpos)
  obtain ⟨hshort, rfl⟩ | ⟨hfits, rfl⟩ := exec_vdec_cases h
  · refine exec_vdec_of_short (s := { s with din := d }) ?_
    obtain hempty | hlane := hfirst
    · simpa [hempty] using announcedLength_pos (lane d 0)
    · rwa [hlane]
  · have hlanes : ∀ j < announcedLength (lane s.din 0), lane d j = lane s.din j := by
      obtain hempty | ⟨hshort, -⟩ | hlanes := hagree
      · simp [hempty] at hfits
        omega
      · omega
      · exact hlanes
    have hread := memRead_congr d s.din 0 (announcedLength (lane s.din 0)) (by simpa using hlanes)
    rw [exec_vdec_of_fits (s := { s with din := d }) (congrArg announcedLength (hlanes 0 hpos)) hfits, hread,
      complete_eq_succeeded, ← Nat.cast_sub hfits, zext_natCast, zext_natCast]
    rfl

/-- A successful VDEC splits the budget into what it consumed and what is left (10_state.md R17). -/
theorem exec_vdec_charges {s t : State} (h : exec .vdec s = .next t) :
    t.consumed.toNat + t.rem.toNat = s.rem.toNat ∧ (t.status ≠ 0x00 → t.rem = s.rem) := by
  obtain ⟨-, rfl⟩ | ⟨hfits, rfl⟩ := exec_vdec_cases h
  · simp
  · have hrem := s.rem.isLt
    refine ⟨?_, fun hfailed => absurd rfl hfailed⟩
    simp only [complete_consumed, complete_rem]
    rw [zext_four_toNat (announcedLength_le _), ← Nat.cast_sub hfits, zext_natCast, BitVec.toNat_ofNat,
      Nat.mod_eq_of_lt (by omega)]
    omega

/-- Settles O18: VDEC's own charge, and the frame of the commands and of an illegal word for the other words. -/
theorem vdecChargesTheBudget : Obligations.VdecChargesTheBudget := by
  unfold Obligations.VdecChargesTheBudget
  refine ⟨fun s t => exec_vdec_charges, fun w s t hw h => ?_⟩
  obtain ⟨i, hdecode, hexec⟩ | rfl := issueCommand_eq_next h
  · have hne : i ≠ .vdec := by
      rintro rfl
      exact hw (eq_encode_of_decode hdecode)
    obtain ⟨-, -, -, -, hrem, -, -⟩ := commandsNeverWriteTheirOperands i s t hexec
    exact hrem hne
  · rfl

end Sys2Proof.Machine
end

section
/-! PROOFS. What PNDEC recovers: the integers of the reconstruction, the window it recovers, its range, and the round
trip with PNENC (41_packet_number.md R87, R88, section 4). -/

namespace Sys2Proof.Machine

/-! ### The reconstruction over the integers (41_packet_number.md R88) -/

/-- The number whose last `win` holds the field `t`, in the window that holds `expected` (41_packet_number.md R88). -/
def candidateFor (t : Nat) (win expected : Int) : Int := expected - expected % win + t

section
variable {len : Nat}

/-- A window of `len` bytes is twice its half (41_packet_number.md R81, R88). -/
theorem window_eq_double (h1 : 1 ≤ len) : (2 : Int) ^ (8 * len) = 2 * 2 ^ (8 * len - 1) := by
  rw [← pow_succ', show 8 * len - 1 + 1 = 8 * len by omega]

theorem halfWindow_pos : (0 : Int) < 2 ^ (8 * len - 1) := by positivity

theorem halfWindow_le (h4 : len ≤ 4) : (2 : Int) ^ (8 * len - 1) ≤ 2 ^ 31 :=
  pow_le_pow_right₀ (by decide) (by omega)

theorem window_dvd_packetNumberBound (h4 : len ≤ 4) : (2 : Int) ^ (8 * len) ∣ 2 ^ 62 :=
  pow_dvd_pow 2 (by omega)

/-- The reconstruction moves the candidate by one window where that brings it nearer to `REF + 1`; the window is twice
its half (41_packet_number.md R88). -/
theorem reconstruct_eq (t : Nat) (ref : Int) {half c : Int} (h1 : 1 ≤ len) (hhalf : half = 2 ^ (8 * len - 1))
    (hc : c = candidateFor t (2 * half) (ref + 1)) :
    reconstruct t len ref =
      if c ≤ ref + 1 - half ∧ c < 2 ^ 62 - 2 * half then c + 2 * half
      else if ref + 1 + half < c ∧ 2 * half ≤ c then c - 2 * half
      else c := by
  have hdouble : (2 : Int) ^ (8 * len) = 2 * half := by rw [window_eq_double h1, hhalf]
  have hdiv : 2 * half / 2 = half := by omega
  simp only [reconstruct, hdouble, hdiv, hc, candidateFor, gt_iff_lt, ge_iff_le]

end

section
variable {t : Nat} {win expected : Int}

/-- The candidate is the field after the start of the window that holds the expected number. -/
theorem candidateFor_eq : candidateFor t win expected = win * (expected / win) + t := by
  rw [candidateFor]
  linarith [Int.mul_ediv_add_emod expected win]

/-- The candidate lies less than a window from the expected number on either side (41_packet_number.md R88). -/
theorem candidateFor_near (ht : (t : Int) < win) :
    expected - win < candidateFor t win expected ∧ candidateFor t win expected < expected + win := by
  have hnonneg := Int.emod_nonneg expected (show win ≠ 0 by omega)
  have hlt := Int.emod_lt_of_pos expected (show 0 < win by omega)
  unfold candidateFor
  omega

/-- A candidate for a nonnegative number is nonnegative (41_packet_number.md R88). -/
theorem candidateFor_nonneg (ht : (t : Int) < win) (h0 : 0 ≤ expected) : 0 ≤ candidateFor t win expected := by
  have hstart := Int.mul_nonneg (show 0 ≤ win by omega) (Int.ediv_nonneg h0 (show 0 ≤ win by omega))
  rw [candidateFor_eq]
  omega

/-- Below a multiple of the window the candidate stays below it: it keeps to the window of the expected number. -/
theorem candidateFor_lt_of_dvd {b : Int} (ht : (t : Int) < win) (hdvd : win ∣ b) (hlt : expected < b) :
    candidateFor t win expected < b := by
  obtain ⟨n, rfl⟩ := hdvd
  have hwin : 0 < win := by omega
  have hquot : expected / win + 1 ≤ n := Int.ediv_lt_of_lt_mul hwin (by rwa [mul_comm])
  calc candidateFor t win expected = win * (expected / win) + t := candidateFor_eq
    _ < win * (expected / win + 1) := by linarith
    _ ≤ win * n := Int.mul_le_mul_of_nonneg_left hquot hwin.le

/-- At a multiple of the window the candidate is the field after it. -/
theorem candidateFor_of_dvd (hdvd : win ∣ expected) : candidateFor t win expected = expected + t := by
  rw [candidateFor, Int.emod_eq_zero_of_dvd hdvd, sub_zero]

/-- A number with the field `t`, less than two windows from the candidate, is the candidate or a window from it. -/
theorem eq_candidateFor_or_one_window {x : Int} (ht : (t : Int) < win) (hx : x % win = t)
    (hlo : candidateFor t win expected - 2 * win < x) (hhi : x < candidateFor t win expected + 2 * win) :
    x = candidateFor t win expected ∨ x = candidateFor t win expected + win ∨
      x = candidateFor t win expected - win := by
  have hwin : 0 < win := by omega
  have hmoved : x = candidateFor t win expected + win * (x / win - expected / win) := by
    rw [candidateFor_eq, ← hx, mul_sub]
    linarith [Int.mul_ediv_add_emod x win]
  generalize x / win - expected / win = k at hmoved
  have hk : k < 2 := lt_of_mul_lt_mul_left (show win * k < win * 2 by linarith) hwin.le
  have hk' : -2 < k := lt_of_mul_lt_mul_left (show win * (-2) < win * k by linarith) hwin.le
  obtain rfl | rfl | rfl : k = 0 ∨ k = 1 ∨ k = -1 := by omega
  · exact .inl (by simpa using hmoved)
  · exact .inr (.inl (by simpa using hmoved))
  · exact .inr (.inr (by linarith))

end

/-! ### What the reconstruction gives (41_packet_number.md section 4) -/

section
variable {t len : Nat} {ref : Int}

/-- The reconstruction gives back every packet number within half a window of `REF + 1` (41_packet_number.md R88). -/
theorem reconstruct_of_window {x : Int} (h1 : 1 ≤ len) (ht : (t : Int) < 2 ^ (8 * len)) (h0 : 0 ≤ x)
    (hmax : x ≤ 2 ^ 62 - 1) (hlo : ref + 1 - 2 ^ (8 * len - 1) < x) (hhi : x ≤ ref + 1 + 2 ^ (8 * len - 1))
    (hx : x % 2 ^ (8 * len) = t) : reconstruct t len ref = x := by
  have hpos := halfWindow_pos (len := len)
  rw [window_eq_double h1] at ht hx
  generalize hhalf : (2 : Int) ^ (8 * len - 1) = half at *
  obtain ⟨hbelow, habove⟩ := candidateFor_near ht (expected := ref + 1)
  have hmoved := eq_candidateFor_or_one_window ht hx (expected := ref + 1) (by omega) (by omega)
  rw [reconstruct_eq t ref h1 hhalf.symm rfl]
  split_ifs <;> omega

/-- The number for reference -1 is the field: there is no lower window to move to (41_packet_number.md section 4). -/
theorem reconstruct_noReference (h1 : 1 ≤ len) (ht : (t : Int) < 2 ^ (8 * len)) : reconstruct t len (-1) = t := by
  have hpos := halfWindow_pos (len := len)
  rw [window_eq_double h1] at ht
  generalize hhalf : (2 : Int) ^ (8 * len - 1) = half at *
  have hc : (t : Int) = candidateFor t (2 * half) (-1 + 1) := by simp [candidateFor]
  rw [reconstruct_eq t (-1) h1 hhalf.symm hc, if_neg (by omega), if_neg (by omega)]

/-- The reconstructed number is at most half a window above `2^62` (41_packet_number.md R92). -/
theorem reconstruct_range (h1 : 1 ≤ len) (h4 : len ≤ 4) (ht : (t : Int) < 2 ^ (8 * len)) (hmin : -1 ≤ ref)
    (hmax : ref ≤ 2 ^ 62 - 1) : 0 ≤ reconstruct t len ref ∧ reconstruct t len ref ≤ 2 ^ 62 + 2 ^ 31 := by
  have hpos := halfWindow_pos (len := len)
  have hle := halfWindow_le h4
  rw [window_eq_double h1] at ht
  generalize hhalf : (2 : Int) ^ (8 * len - 1) = half at *
  have h0 := candidateFor_nonneg ht (show 0 ≤ ref + 1 by omega)
  obtain ⟨-, habove⟩ := candidateFor_near ht (expected := ref + 1)
  rw [reconstruct_eq t ref h1 hhalf.symm rfl]
  split_ifs <;> omega

/-- Only the largest reference leads to a number above the packet numbers (41_packet_number.md R92; decision D24). -/
theorem reconstruct_lt (h1 : 1 ≤ len) (h4 : len ≤ 4) (ht : (t : Int) < 2 ^ (8 * len)) (hmax : ref < 2 ^ 62 - 1) :
    reconstruct t len ref < 2 ^ 62 := by
  have hpos := halfWindow_pos (len := len)
  have hdvd := window_dvd_packetNumberBound h4
  rw [window_eq_double h1] at ht hdvd
  generalize hhalf : (2 : Int) ^ (8 * len - 1) = half at *
  have hlt := candidateFor_lt_of_dvd ht hdvd (show ref + 1 < 2 ^ 62 by omega)
  rw [reconstruct_eq t ref h1 hhalf.symm rfl]
  split_ifs <;> omega

/-- For the largest reference the lower half of the window lies above `2^62` and the upper half below it
(41_packet_number.md R92; decision D24). -/
theorem reconstruct_maxReference (h1 : 1 ≤ len) (h4 : len ≤ 4) (ht : (t : Int) < 2 ^ (8 * len)) :
    reconstruct t len (2 ^ 62 - 1) =
      if (t : Int) ≤ 2 ^ (8 * len - 1) then 2 ^ 62 + (t : Int) else 2 ^ 62 + (t : Int) - 2 ^ (8 * len) := by
  have hpos := halfWindow_pos (len := len)
  have hle := halfWindow_le h4
  have hdvd := window_dvd_packetNumberBound h4
  rw [window_eq_double h1] at ht hdvd ⊢
  generalize hhalf : (2 : Int) ^ (8 * len - 1) = half at *
  have hc := candidateFor_of_dvd hdvd (t := t)
  rw [reconstruct_eq t (2 ^ 62 - 1) h1 hhalf.symm (by rw [sub_add_cancel, hc])]
  split_ifs <;> omega

end

/-- Settles O31: at `expected = 0` the candidate is the field, and neither move applies to it. -/
theorem noReferenceBranchAgreesWithFormula : Obligations.NoReferenceBranchAgreesWithFormula := by
  unfold Obligations.NoReferenceBranchAgreesWithFormula
  exact fun t len h1 _ ht => reconstruct_noReference h1 (by exact_mod_cast ht)

/-! ### The number PNDEC recovers (41_packet_number.md R87) -/

section
variable {t len : Nat} {ref : Int}

@[simp] theorem recovered_noReference : recovered t len (-1) = t := if_pos rfl

/-- The branch without a reference agrees with the formula, so the formula gives the recovered number for every legal
reference (41_packet_number.md section 4). -/
theorem recovered_eq_reconstruct (h1 : 1 ≤ len) (ht : (t : Int) < 2 ^ (8 * len)) :
    recovered t len ref = reconstruct t len ref := by
  by_cases href : ref = -1
  · rw [href, recovered_noReference, reconstruct_noReference h1 ht]
  · exact if_neg href

end

/-- The field PNDEC reads fits its window (41_packet_number.md R81). -/
theorem memRead_lt_window (w : Word) (n : Nat) : (memRead w 0 n : Int) < 2 ^ (8 * n) := by
  exact_mod_cast memRead_lt w 0 n

section
variable {s : State}

/-- A legal PNDEC, with its recovered number named (41_packet_number.md R87). -/
theorem exec_pndec_of_recovered {n : Nat} {x : Int} (hn : s.len.toNat = n) (h1 : 1 ≤ n) (h4 : n ≤ 4)
    (hmin : -1 ≤ s.ref.toInt) (hmax : s.ref.toInt ≤ 2 ^ 62 - 1)
    (hx : recovered (memRead s.din 0 n) n s.ref.toInt = x) :
    exec .pndec s = .next (succeeded 0 (BitVec.ofNat 4 n) { s with res := BitVec.ofInt 64 x }) := by
  subst hn
  rw [exec_pndec_of_legal h1 h4 hmin hmax, hx, complete_eq_succeeded]
  rfl

/-- A PNDEC that succeeds had legal operands, and RES holds the number of the reconstruction (41_packet_number.md
R87 to R89). -/
theorem exec_pndec_ok_reconstructs {t : State} (h : exec .pndec s = .next t) (hok : t.status = 0x00) :
    1 ≤ s.len.toNat ∧ s.len.toNat ≤ 4 ∧ -1 ≤ s.ref.toInt ∧ s.ref.toInt ≤ 2 ^ 62 - 1 ∧
      (t.res.toNat : Int) = reconstruct (memRead s.din 0 s.len.toNat) s.len.toNat s.ref.toInt := by
  obtain ⟨-, rfl⟩ | ⟨-, -, -, rfl⟩ | ⟨h1, h4, hmin, hmax, rfl⟩ := exec_pndec_cases h
  · exact absurd hok (statusOf_ne_ok _)
  · exact absurd hok (statusOf_ne_ok _)
  · have hfield := memRead_lt_window s.din s.len.toNat
    obtain ⟨h0, hle⟩ := reconstruct_range h1 h4 hfield hmin hmax
    rw [recovered_eq_reconstruct h1 hfield]
    exact ⟨h1, h4, hmin, hmax, zext_toNat 64 _ h0 (by omega)⟩

end

theorem ofInt_toNat (w : Word) : BitVec.ofInt 64 (w.toNat : Int) = w := by
  rw [BitVec.ofInt_natCast, BitVec.ofNat_toNat, BitVec.setWidth_eq]

/-- Settles O27: without a reference the recovered number is the field, the top bytes of DIN. -/
theorem pndecWithoutReference : Obligations.PndecWithoutReference := by
  unfold Obligations.PndecWithoutReference
  intro s href h1 h4
  have hfield : recovered (memRead s.din 0 s.len.toNat) s.len.toNat s.ref.toInt =
      (s.din >>> (64 - 8 * s.len.toNat)).toNat := by
    rw [href, recovered_noReference, memRead_eq_ushiftRight s.din (by omega)]
  rw [exec_pndec_of_recovered rfl h1 h4 (by omega) (by omega) hfield, ofInt_toNat]

/-- Settles O29: a number of the window with the field in DIN is the one the reconstruction gives. -/
theorem pndecRecoversTheWindow : Obligations.PndecRecoversTheWindow := by
  unfold Obligations.PndecRecoversTheWindow
  intro s x href0 hrefmax h1 h4 h0 hmax hlo hhi hx
  have hfield := memRead_lt_window s.din s.len.toNat
  rw [← memRead_eq_ushiftRight s.din (by omega)] at hx
  exact exec_pndec_of_recovered rfl h1 h4 (by omega) hrefmax <|
    (recovered_eq_reconstruct h1 hfield).trans (reconstruct_of_window h1 hfield h0 hmax hlo hhi hx)

/-- Settles O30: the bounds of the reconstruction, which RES holds without wrapping. -/
theorem pndecResultRange : Obligations.PndecResultRange := by
  unfold Obligations.PndecResultRange
  rintro s t field h hok rfl
  obtain ⟨h1, h4, hmin, hmax, hres⟩ := exec_pndec_ok_reconstructs h hok
  have hfield := memRead_lt_window s.din s.len.toNat
  rw [memRead_eq_ushiftRight s.din (by omega)] at hfield hres
  obtain ⟨-, hle⟩ := hres ▸ reconstruct_range h1 h4 hfield hmin hmax
  refine ⟨by omega, fun href => ?_, fun hlarge => ?_, fun href => ?_⟩
  · rw [href, reconstruct_noReference h1 hfield] at hres
    zify
    omega
  · have hlt := fun hbelow => hres ▸ reconstruct_lt (ref := s.ref.toInt) h1 h4 hfield hbelow
    omega
  · rw [href, reconstruct_maxReference h1 h4 hfield] at hres
    have hwin : 2 ^ (8 * s.len.toNat) ≤ 2 ^ 62 := Nat.pow_le_pow_right (by decide) (by omega)
    refine ⟨fun hlower => ?_, fun hupper => ?_⟩
    · rw [if_pos (by exact_mod_cast hlower)] at hres
      exact_mod_cast hres
    · rw [if_neg (by exact_mod_cast hupper.not_ge)] at hres
      zify [hwin.trans (Nat.le_add_right _ _)]
      exact hres

/-! ### PNENC against its reference -/

/-- A PNENC that succeeds chose a length for legal operands and wrote the truncated field in that many lanes
(41_packet_number.md R86). -/
theorem exec_pnenc_ok_writes_field {s t : State} (h : exec .pnenc s = .next t) (hok : t.status = 0x00) :
    ∃ L, pnencLength s.val.toInt t.ref.toInt = .ok L ∧ t.olen = BitVec.ofNat 4 L ∧
      t.dout = memWrite s.dout 0 L (truncatedField s.val.toInt L) := by
  obtain ⟨k, -, rfl⟩ | ⟨L, hL, rfl⟩ := exec_pnenc_cases h
  · exact absurd hok (statusOf_ne_ok k)
  · exact ⟨L, hL, zext_natCast 4 L, rfl⟩

/-- Where PNENC found a length, the number comes back from its truncated field (41_packet_number.md section 4). -/
theorem recovered_truncatedField {pn ref : Int} {L : Nat} (h : pnencLength pn ref = .ok L) :
    recovered (truncatedField pn L) L ref = pn := by
  obtain ⟨h0, hmax, -, -, h1, -, hlength⟩ := pnencLength_eq_ok h
  have hpos : (0 : Int) < 2 ^ (8 * L) := by positivity
  have hfield : (truncatedField pn L : Int) = pn % 2 ^ (8 * L) :=
    Int.toNat_of_nonneg (Int.emod_nonneg pn hpos.ne')
  obtain ⟨rfl, hbelow⟩ | ⟨href0, habove, hnear⟩ := hlength
  · rw [recovered_noReference, hfield, Int.emod_eq_of_lt h0 (by omega)]
  · have hlt : (truncatedField pn L : Int) < 2 ^ (8 * L) := hfield ▸ Int.emod_lt_of_pos pn hpos
    have hhalf := halfWindow_pos (len := L)
    rw [recovered_eq_reconstruct h1 hlt,
      reconstruct_of_window h1 hlt h0 hmax (by omega) (by omega) hfield.symm]

/-- Settles O32: the lanes hold the truncated field, from which PNDEC recovers the number. -/
theorem packetNumberRoundTrip : Obligations.PacketNumberRoundTrip := by
  unfold Obligations.PacketNumberRoundTrip
  intro s t d h hok hlanes
  obtain ⟨L, hL, holen, hdout⟩ := exec_pnenc_ok_writes_field h hok
  obtain ⟨-, -, hmin, hmax, h1, h4, -⟩ := pnencLength_eq_ok hL
  have hlen : t.olen.toNat = L := by rw [holen, ofNat_four_toNat (by omega)]
  have hlen' : (t.olen.setWidth 8).toNat = L := by rw [BitVec.toNat_setWidth_of_le (by decide), hlen]
  have hread : memRead d 0 L = truncatedField s.val.toInt L := by
    rw [memRead_congr d t.dout 0 L (by simpa [hlen] using hlanes), hdout,
      memRead_memWrite _ _ _ _ (by omega) (truncatedField_lt _ _)]
  rw [exec_pndec_of_recovered (s := { t with din := d, len := t.olen.setWidth 8 }) hlen' h1 h4 hmin hmax
    (hread ▸ recovered_truncatedField hL), BitVec.ofInt_toInt, holen]

/-! ### The errors and the lengths of PNENC -/

theorem lengthOrTooLarge_ne_nonMonotonic (o : Option Nat) : lengthOrTooLarge o ≠ .error .nonMonotonic := by
  cases o <;> simp [lengthOrTooLarge]

/-- `NonMonotonic` needs a reference that the number is not above (41_packet_number.md R83). -/
theorem pnencLength_eq_nonMonotonic {pn ref : Int} (h : pnencLength pn ref = .error .nonMonotonic) :
    0 ≤ ref ∧ pn ≤ ref := by
  by_cases hneg : pn < 0
  · simp [pnencLength_of_negative hneg] at h
  by_cases hillegal : ref < -1 ∨ 2 ^ 62 - 1 < ref
  · simp [pnencLength_of_illegalReference hillegal] at h
  by_cases hlarge : 2 ^ 62 - 1 < pn
  · simp [pnencLength_of_large (ref := ref) hlarge (by omega) (by omega)] at h
  by_cases href : ref = -1
  · rw [href, pnencLength_noReference (by omega) (by omega)] at h
    exact absurd h (lengthOrTooLarge_ne_nonMonotonic _)
  · rw [pnencLength_reference (by omega) (by omega) (by omega) (by omega)] at h
    split at h
    · omega
    · exact absurd h (lengthOrTooLarge_ne_nonMonotonic _)

/-- A PNENC that found a length wrote the bytes of the truncated field (41_packet_number.md R86). -/
theorem exec_pnenc_lanes {s : State} {L : Nat} (h : pnencLength s.val.toInt s.ref.toInt = .ok L) :
    ∃ t, exec .pnenc s = .next t ∧ t.olen = BitVec.ofNat 4 L ∧
      ∀ j < L, lane t.dout j = byteOf (truncatedField s.val.toInt L) (L - 1 - j) := by
  obtain ⟨-, -, -, -, -, h4, -⟩ := pnencLength_eq_ok h
  exact ⟨_, exec_pnenc_of_ok h, zext_natCast 4 L, fun j hj => by
    simpa using lane_memWrite_inside s.dout 0 L (truncatedField s.val.toInt L) j (by omega) hj⟩

/-- Settles O25: the lengths that the two rules choose for 200, and the bytes of 200 in that many lanes. -/
theorem twoLengthRulesDiffer : Obligations.TwoLengthRulesDiffer := by
  unfold Obligations.TwoLengthRulesDiffer
  refine fun s hval => ⟨fun href => ?_, fun href => ?_⟩
  · obtain ⟨t, ht, holen, hlanes⟩ := exec_pnenc_lanes (s := s) (L := 1) (by rw [hval, href]; decide)
    rw [hval] at hlanes
    exact ⟨t, ht, holen, hlanes 0 (by decide)⟩
  · obtain ⟨t, ht, holen, hlanes⟩ := exec_pnenc_lanes (s := s) (L := 2) (by rw [hval, href]; decide)
    rw [hval] at hlanes
    exact ⟨t, ht, holen, hlanes 0 (by decide), hlanes 1 (by decide)⟩

end Sys2Proof.Machine
end

section
/-! PROOFS. What a completed command leaves in STATUS and in DOUT: the errors of each command, the layout of STATUS, and
the lanes beyond OLEN (10_state.md R13, R19; 60_exceptions.md R102). -/

namespace Sys2Proof.Machine

/-! ### The errors of each command (60_exceptions.md R102) -/

/-- A varint operand raises one of two errors (40_varint.md R60). -/
theorem statusOf_varintOperand_mem {v : Int} {k : ErrorKind} (h : varintOperand v = .error k) :
    statusOf k ∈ ([0x00, 0x02, 0x03] : List Byte) := by
  obtain ⟨-, rfl⟩ | ⟨-, rfl⟩ := varintOperand_eq_error.1 h <;> decide

/-- PNENC's checks raise one of three errors (41_packet_number.md R86). -/
theorem statusOf_pnencLength_mem {pn ref : Int} {k : ErrorKind} (h : pnencLength pn ref = .error k) :
    statusOf k ∈ ([0x00, 0x02, 0x03, 0x04] : List Byte) := by
  obtain rfl | rfl | rfl := pnencLength_eq_error h <;> decide

/-- Settles O34: each command succeeds or raises what its own checks raise. -/
theorem errorsEachCommandCanRaise : Obligations.ErrorsEachCommandCanRaise := by
  unfold Obligations.ErrorsEachCommandCanRaise
  refine fun s t => ⟨fun h => ?_, fun h => ?_, fun h => ?_, fun h => ?_, fun h => ?_, fun h => ?_⟩
  · obtain ⟨k, hk, rfl⟩ | ⟨v, -, rfl⟩ := exec_vlen_cases h
    exacts [statusOf_varintOperand_mem hk, List.mem_cons_self]
  · obtain ⟨k, hk, rfl⟩ | ⟨v, -, rfl⟩ := exec_venc_cases h
    exacts [statusOf_varintOperand_mem hk, List.mem_cons_self]
  · obtain rfl := exec_venc0_cases h
    rfl
  · obtain ⟨-, rfl⟩ | ⟨-, rfl⟩ := exec_vdec_cases h
    exacts [by rw [raise_status]; decide, List.mem_cons_self]
  · obtain ⟨k, hk, rfl⟩ | ⟨L, -, rfl⟩ := exec_pnenc_cases h
    exacts [statusOf_pnencLength_mem hk, List.mem_cons_self]
  · obtain ⟨-, rfl⟩ | ⟨-, -, -, rfl⟩ | ⟨-, -, -, -, rfl⟩ := exec_pndec_cases h
    exacts [by rw [raise_status]; decide, by rw [raise_status]; decide, List.mem_cons_self]

/-- Settles O24: PNENC's choice of a length is the only place of the error, and a length needs a number above REF. -/
theorem monotonicAgainstTheReferenceOnly : Obligations.MonotonicAgainstTheReferenceOnly := by
  unfold Obligations.MonotonicAgainstTheReferenceOnly
  refine fun s t => ⟨fun h => ?_, fun h hnonMonotonic => ?_⟩
  · obtain ⟨k, hk, rfl⟩ | ⟨L, hL, rfl⟩ := exec_pnenc_cases h
    · refine ⟨fun hstatus => ?_, fun hok => absurd hok (statusOf_ne_ok k)⟩
      obtain rfl : k = .nonMonotonic := statusOf_injective hstatus
      exact pnencLength_eq_nonMonotonic hk
    · obtain ⟨h0, -, -, -, -, -, hreference⟩ := pnencLength_eq_ok hL
      exact ⟨fun hstatus => absurd hstatus (by rw [complete_status]; decide), fun _ => by omega⟩
  · obtain ⟨-, -, -, -, -, hstatus⟩ := errorsEachCommandCanRaise s t
    exact absurd (hnonMonotonic ▸ hstatus h) (by decide)

/-! ### The layout of STATUS (10_state.md R13) -/

theorem statusOf_mem_legalStatuses (k : ErrorKind) : statusOf k ∈ legalStatuses := by
  cases k <;> decide

theorem legalStatus_fields {b : Byte} (hb : b ∈ legalStatuses) :
    (pvField b = true ↔ errField b = 1) ∧ reservedField b = 0 := by
  have hall : ∀ b ∈ legalStatuses, (pvField b = true ↔ errField b = 1) ∧ reservedField b = 0 := by decide
  exact hall b hb

/-- A word succeeds or does an error completion, and both leave one of the seven values (60_exceptions.md R103). -/
theorem issueCommand_status_mem {w : Byte} {s t : State} (h : issueCommand w s = .next t) :
    t.status ∈ legalStatuses := by
  by_cases hok : t.status = 0x00
  · rw [hok]
    decide
  · obtain ⟨k, rfl⟩ := issueCommand_raises_of_status_ne_ok h hok
    exact statusOf_mem_legalStatuses k

@[simp] theorem storeRegister_status (r : Reg) (v : BitVec r.width) (s : State) :
    (storeRegister r v s).status = s.status := by
  cases r <;> rfl

/-- Settles O35: the seven values have the layout, and no register write or read reaches STATUS. -/
theorem statusLayout : Obligations.StatusLayout := by
  unfold Obligations.StatusLayout
  refine ⟨fun w s t h => ?_, fun r v s t hr h => ?_, fun r s t h => ?_⟩
  · have hlegal := issueCommand_status_mem h
    exact ⟨hlegal, legalStatus_fields hlegal⟩
  · obtain rfl : t = storeRegister r v s := by simpa [perform_write_of_ne_cmd hr] using h.symm
    exact storeRegister_status r v s
  · cases h
    rfl

/-! ### The lanes of DOUT beyond OLEN (10_state.md R19) -/

/-- A command leaves DOUT alone, or writes the lanes below OLEN (40_varint.md R64, R65; 41_packet_number.md R86). -/
theorem exec_dout_cases {i : Instr} {s t : State} (h : exec i s = .next t) :
    t.dout = s.dout ∨ ∃ v, t.olen.toNat ≤ 8 ∧ t.dout = memWrite s.dout 0 t.olen.toNat v := by
  have hwritten : ∀ {n v : Nat}, n ≤ 8 → t = complete n 0 { s with dout := memWrite s.dout 0 n v } →
      t.dout = s.dout ∨ ∃ v, t.olen.toNat ≤ 8 ∧ t.dout = memWrite s.dout 0 t.olen.toNat v := by
    rintro n v hn rfl
    rw [complete_olen, zext_four_toNat hn]
    exact .inr ⟨v, hn, rfl⟩
  obtain ⟨-, -, -, -, -, hdout, -⟩ := commandsNeverWriteTheirOperands i s t h
  cases i with
  | vlen | vdec | pndec => exact .inl (hdout (by decide) (by decide) (by decide))
  | venc =>
    obtain ⟨k, -, rfl⟩ | ⟨v, -, ht⟩ := exec_venc_cases h
    exacts [.inl rfl, hwritten (encodedLength_le v) ht]
  | venc0 => exact hwritten (n := 1) (by decide) (exec_venc0_cases h)
  | pnenc =>
    obtain ⟨k, -, rfl⟩ | ⟨L, hL, ht⟩ := exec_pnenc_cases h
    · exact .inl rfl
    · obtain ⟨-, -, -, -, -, h4, -⟩ := pnencLength_eq_ok hL
      exact hwritten (by omega) ht

/-- The lanes that no length covers keep their values (10_state.md R19). -/
theorem issueCommand_keeps_lanes_beyond_olen {w : Byte} {s t : State} (h : issueCommand w s = .next t) {j : Nat}
    (hj : t.olen.toNat ≤ j) (hlt : j < 8) : lane t.dout j = lane s.dout j := by
  obtain ⟨i, -, hexec⟩ | rfl := issueCommand_eq_next h
  · obtain hdout | ⟨v, hlen, hdout⟩ := exec_dout_cases hexec
    · rw [hdout]
    · rw [hdout, lane_memWrite_above _ _ hlen hj hlt]
  · rfl

/-- Settles O38: the lanes an encode does not write, the frame of an error and of the decodes, and a lane's bits. -/
theorem lanesBeyondTheLengthAreKept : Obligations.LanesBeyondTheLengthAreKept := by
  unfold Obligations.LanesBeyondTheLengthAreKept
  refine ⟨fun w s t h => ⟨fun j => issueCommand_keeps_lanes_beyond_olen h, fun hfailed => ?_, fun hw => ?_⟩,
    fun d i _ => lane_toNat d i⟩
  · obtain ⟨k, rfl⟩ := issueCommand_raises_of_status_ne_ok h hfailed
    rfl
  · obtain ⟨i, hdecode, hi⟩ : ∃ i, decode w = .ok i ∧ (i = .vdec ∨ i = .pndec) := by
      obtain rfl | rfl := hw
      exacts [⟨_, decode_encode .vdec, .inl rfl⟩, ⟨_, decode_encode .pndec, .inr rfl⟩]
    rw [issueCommand_of_decode_ok hdecode] at h
    obtain ⟨-, -, -, -, -, hdout, -⟩ := commandsNeverWriteTheirOperands i s t h
    obtain rfl | rfl := hi <;> exact hdout (by decide) (by decide) (by decide)

/-! ### The window as one register (10_state.md R18, 20_memory.md R32) -/

/-- Settles O46: the reading of the first lanes is the quotient of the register, and all eight are the register. -/
theorem windowReadsBigEndian : Obligations.WindowReadsBigEndian := by
  unfold Obligations.WindowReadsBigEndian
  exact fun w n hn => ⟨memRead_eq_div w hn, by simpa using memRead_eq_div w (n := 8) le_rfl⟩

end Sys2Proof.Machine
end

section
/-! PROOFS. The decoder and the encoder are inverse, and the words that decode are the well-formed ones (30_encoding.md
R45 to R47). -/

namespace Sys2Proof

/-- A command word is its two fields, the high one first (30_encoding.md R45). -/
theorem zeroField_append_opField (w : Byte) : (zeroField w ++ opField w : Byte) = w := by
  calc w.extractLsb' 3 5 ++ w.extractLsb' 0 3 = w.extractLsb' 0 8 :=
        BitVec.extractLsb'_append_extractLsb'_eq_extractLsb' rfl
    _ = w := BitVec.extractLsb'_eq_self

/-- Every operation code but 0 and 7 is a command's (30_encoding.md R46, R47). -/
theorem exists_opCode_eq {op : BitVec 3} (h0 : op ≠ 0) (h7 : op ≠ 7) : ∃ i, opCode i = op := by
  have hmem : op ∈ [Instr.vlen, .venc, .venc0, .vdec, .pnenc, .pndec].map opCode := by
    revert op
    decide
  obtain ⟨i, -, hi⟩ := List.mem_map.1 hmem
  exact ⟨i, hi⟩

theorem wordWellFormed_iff (w : Byte) :
    wordWellFormed w = true ↔ zeroField w = 0 ∧ opField w ≠ 0 ∧ opField w ≠ 7 := by
  simp [wordWellFormed, zeroFieldOk, opFieldOk]

/-- A word whose fields pass the checks is the encoding of a command (30_encoding.md R45 to R47). -/
theorem exists_encode_eq_of_wordWellFormed {w : Byte} (h : wordWellFormed w = true) : ∃ i, encode i = w := by
  obtain ⟨hzero, h0, h7⟩ := (wordWellFormed_iff w).1 h
  obtain ⟨i, hop⟩ := exists_opCode_eq h0 h7
  exact ⟨i, by rw [encode, hop, ← hzero, zeroField_append_opField]⟩

theorem wordWellFormed_encode (i : Instr) : wordWellFormed (encode i) = true := by
  cases i <;> decide

/-- Settles O9: the words that decode are the encodings of the commands, and these are the well-formed words. -/
theorem decodeAndEncodeAgree : Obligations.DecodeAndEncodeAgree := by
  unfold Obligations.DecodeAndEncodeAgree
  refine ⟨fun w i => decode_eq_ok_iff.trans eq_comm, fun w => ⟨fun h => ?_, ?_⟩⟩
  · obtain ⟨i, rfl⟩ := exists_encode_eq_of_wordWellFormed h
    exact ⟨i, decode_encode i⟩
  · rintro ⟨i, h⟩
    rw [eq_encode_of_decode h]
    exact wordWellFormed_encode i

/-- A one-byte table row is decoded from its low byte (30_encoding.md R45). -/
theorem decode_of_decodeTableWord {w : Nat} {i : Instr} (h : decodeTableWord 8 w = some i) :
    decode (BitVec.ofNat 8 (w % 2 ^ 8)) = .ok i := by
  rw [decodeTableWord, if_pos (show w % 2 ^ 8 < 256 from Nat.mod_lt w (by decide))] at h
  cases hdecode : decode (BitVec.ofNat 8 (w % 2 ^ 8)) <;> rw [hdecode] at h <;> cases h
  rfl

end Sys2Proof
end

section
/-! PROOFS. One step: what each action of the host does to the registers and to the host's own lists, and that a step
runs the issued command (10_state.md section 1). -/

namespace Sys2Proof.Machine

/-! ### What an action of the host can do (10_state.md R10) -/

/-- Every action: a command word runs, another write stores its value, a read records its answer, a reset resets. -/
theorem perform_cases {a : HostAction} {s t : State} (h : perform a s = .next t) :
    (∃ w, a = .write .cmd w ∧ issueCommand w s = .next t) ∨
    (∃ r v, r ≠ .cmd ∧ a = .write r v ∧ t = storeRegister r v s) ∨
    (∃ r, a = .read r ∧ t = { s with reads := ⟨r, readRegister r s⟩ :: s.reads }) ∨
    (a = .reset ∧ t = resetRegisters s) := by
  cases a with
  | write r v =>
    by_cases hr : r = .cmd
    · subst hr
      exact .inl ⟨v, rfl, h⟩
    · rw [perform_write_of_ne_cmd hr] at h
      cases h
      exact .inr (.inl ⟨r, v, hr, rfl, rfl⟩)
  | read r =>
    cases h
    exact .inr (.inr (.inl ⟨r, rfl, rfl⟩))
  | reset =>
    cases h
    exact .inr (.inr (.inr ⟨rfl, rfl⟩))

/-- No action stops the machine (60_exceptions.md R100, R104). -/
theorem perform_completes (a : HostAction) (s : State) : ∃ t, perform a s = .next t := by
  cases a with
  | write r v =>
    by_cases hr : r = .cmd
    · subst hr
      exact issueCommand_completes v s
    · exact ⟨_, perform_write_of_ne_cmd hr v s⟩
  | read r => exact ⟨_, perform_read r s⟩
  | reset => exact ⟨_, perform_reset s⟩

/-- Settles O2: the step with nothing waiting is the model's idle step. -/
theorem idleBlockDoesNothing : Obligations.IdleBlockDoesNothing := by
  unfold Obligations.IdleBlockDoesNothing
  exact fun s => step_of_nil

/-- Settles O7: a step is idle or carries out an action, and every action completes. -/
theorem everyStepAnswersAState : Obligations.EveryStepAnswersAState := by
  unfold Obligations.EveryStepAnswersAState
  intro s
  cases h : s.pending with
  | nil => exact ⟨s, step_of_nil h⟩
  | cons a rest =>
    rw [step_of_cons h]
    exact perform_completes a _

/-- Settles O4: the action waiting is carried out, and a write to `CMD` runs what its word decodes to. -/
theorem stepRunsTheIssuedCommand : Obligations.StepRunsTheIssuedCommand := by
  unfold Obligations.StepRunsTheIssuedCommand
  have hcmd : ∀ (s : State) (w : Byte) (i : Instr) (rest : List HostAction),
      s.pending = .write .cmd w :: rest → decode w = .ok i → step s = exec i { s with pending := rest } :=
    fun s w i rest h hdecode => (step_of_cons h).trans (issueCommand_of_decode_ok hdecode)
  exact ⟨fun s a rest => step_of_cons, hcmd,
    fun s w i h => hcmd (s.withFetchWord 8 w) _ i s.pending rfl (decode_of_decodeTableWord h)⟩

/-! ### The host's two lists (log entries 1 and 2) -/

section
variable {s t : State}

/-- No command touches the host's lists (10_state.md R10). -/
theorem exec_keeps_hostLists {i : Instr} (h : exec i s = .next t) : t.pending = s.pending ∧ t.reads = s.reads := by
  cases i with
  | vlen => obtain ⟨k, -, rfl⟩ | ⟨v, -, rfl⟩ := exec_vlen_cases h <;> simp
  | venc => obtain ⟨k, -, rfl⟩ | ⟨v, -, rfl⟩ := exec_venc_cases h <;> simp
  | venc0 =>
    obtain rfl := exec_venc0_cases h
    simp
  | vdec => obtain ⟨-, rfl⟩ | ⟨-, rfl⟩ := exec_vdec_cases h <;> simp
  | pnenc => obtain ⟨k, -, rfl⟩ | ⟨L, -, rfl⟩ := exec_pnenc_cases h <;> simp
  | pndec => obtain ⟨-, rfl⟩ | ⟨-, -, -, rfl⟩ | ⟨-, -, -, -, rfl⟩ := exec_pndec_cases h <;> simp

theorem issueCommand_keeps_hostLists {w : Byte} (h : issueCommand w s = .next t) :
    t.pending = s.pending ∧ t.reads = s.reads := by
  obtain ⟨i, -, hexec⟩ | rfl := issueCommand_eq_next h
  · exact exec_keeps_hostLists hexec
  · exact ⟨rfl, rfl⟩

end

@[simp] theorem readRegister_pending (r : Reg) (s : State) (rest : List HostAction) :
    readRegister r { s with pending := rest } = readRegister r s := by
  cases r <;> rfl

/-- Settles O3: the action leaves the list before it is carried out, and only a read records an answer. -/
theorem stepTakesExactlyOneAction : Obligations.StepTakesExactlyOneAction := by
  unfold Obligations.StepTakesExactlyOneAction
  refine ⟨fun s t a rest hpending h => ?_, fun i s t => exec_keeps_hostLists⟩
  rw [step_of_cons hpending] at h
  obtain ⟨w, rfl, hissue⟩ | ⟨r, v, -, rfl, rfl⟩ | ⟨r, rfl, rfl⟩ | ⟨rfl, rfl⟩ := perform_cases h
  · exact issueCommand_keeps_hostLists hissue
  · simp
  · simp
  · simp

end Sys2Proof.Machine
end

section
/-! PROOFS. The invariant of the result registers, which every action of the host keeps (10_state.md R13, R20 to R22;
60_exceptions.md R103). -/

namespace Sys2Proof.Machine

section
variable {s t : State}

/-- A success leaves the invariant if it reports a legal length and RES is in its range: STATUS and the lengths are
new (60_exceptions.md R100). -/
theorem resultInv_complete {o c : Nat} (ho : BitVec.ofNat 4 o ∈ legalLengths) (hc : BitVec.ofNat 4 c ∈ legalLengths)
    (hone : o = 0 ∨ c = 0) (hres : s.res.toNat ≤ 2 ^ 62 + 2 ^ 31) : ResultInv (complete o c s) where
  status_legal := List.mem_cons_self
  status_fields := legalStatus_fields List.mem_cons_self
  error_clears := fun hfailed => absurd rfl hfailed
  olen_legal := by rwa [complete_olen, zext_natCast]
  consumed_legal := by rwa [complete_consumed, zext_natCast]
  one_length := by
    rw [complete_olen, complete_consumed, zext_natCast, zext_natCast]
    obtain rfl | rfl := hone
    exacts [.inl rfl, .inr rfl]
  res_range := hres

/-- An error leaves the invariant if RES is in its range (60_exceptions.md R103). -/
theorem resultInv_raise (k : ErrorKind) (hres : s.res.toNat ≤ 2 ^ 62 + 2 ^ 31) : ResultInv (raise k s) where
  status_legal := statusOf_mem_legalStatuses k
  status_fields := legalStatus_fields (statusOf_mem_legalStatuses k)
  error_clears := fun _ => ⟨rfl, rfl⟩
  olen_legal := List.mem_cons_self
  consumed_legal := List.mem_cons_self
  one_length := .inl rfl
  res_range := hres

/-- A varint's length is one the two length registers can hold (40_varint.md R61). -/
theorem ofNat_mem_legalLengths_of_varint {n : Nat} (hn : n ∈ [1, 2, 4, 8]) : BitVec.ofNat 4 n ∈ legalLengths := by
  have hall : ∀ n ∈ [1, 2, 4, 8], BitVec.ofNat 4 n ∈ legalLengths := by decide
  exact hall n hn

/-- A packet number's length is one the two length registers can hold (41_packet_number.md R81). -/
theorem ofNat_mem_legalLengths_of_packetNumber {n : Nat} (h1 : 1 ≤ n) (h4 : n ≤ 4) :
    BitVec.ofNat 4 n ∈ legalLengths := by
  interval_cases n <;> decide

/-- A varint is at most `2^62 - 1` (40_varint.md R60). -/
theorem zext_varint_toNat_le {m n : Nat} (hn : n ≤ 8) :
    (zext 64 ((m % 2 ^ (8 * n - 2) : Nat) : Int)).toNat ≤ 2 ^ 62 + 2 ^ 31 := by
  have hvalue : m % 2 ^ (8 * n - 2) < 2 ^ (8 * n - 2) := Nat.mod_lt _ (Nat.two_pow_pos _)
  have hbound : 2 ^ (8 * n - 2) ≤ 2 ^ 62 := Nat.pow_le_pow_right (by decide) (by omega)
  rw [zext_natCast, BitVec.toNat_ofNat, Nat.mod_eq_of_lt (by omega)]
  omega

/-- Every command leaves the invariant where RES was in its range: the encodes keep RES, the decodes write a value of
the range (10_state.md R22). -/
theorem exec_resultInv {i : Instr} (hres : s.res.toNat ≤ 2 ^ 62 + 2 ^ 31) (h : exec i s = .next t) :
    ResultInv t := by
  have hzero : BitVec.ofNat 4 0 ∈ legalLengths := by decide
  cases i with
  | vlen =>
    obtain ⟨k, -, rfl⟩ | ⟨v, -, rfl⟩ := exec_vlen_cases h
    · exact resultInv_raise k hres
    · exact resultInv_complete (ofNat_mem_legalLengths_of_varint (encodedLength_mem v)) hzero (.inr rfl) hres
  | venc =>
    obtain ⟨k, -, rfl⟩ | ⟨v, -, rfl⟩ := exec_venc_cases h
    · exact resultInv_raise k hres
    · exact resultInv_complete (ofNat_mem_legalLengths_of_varint (encodedLength_mem v)) hzero (.inr rfl) hres
  | venc0 =>
    obtain rfl := exec_venc0_cases h
    exact resultInv_complete (by decide) hzero (.inr rfl) hres
  | vdec =>
    obtain ⟨-, rfl⟩ | ⟨-, rfl⟩ := exec_vdec_cases h
    · exact resultInv_raise _ hres
    · exact resultInv_complete hzero (ofNat_mem_legalLengths_of_varint (announcedLength_mem _)) (.inl rfl)
        (zext_varint_toNat_le (announcedLength_le _))
  | pnenc =>
    obtain ⟨k, -, rfl⟩ | ⟨L, hL, rfl⟩ := exec_pnenc_cases h
    · exact resultInv_raise k hres
    · obtain ⟨-, -, -, -, h1, h4, -⟩ := pnencLength_eq_ok hL
      exact resultInv_complete (ofNat_mem_legalLengths_of_packetNumber h1 h4) hzero (.inr rfl) hres
  | pndec =>
    obtain ⟨-, rfl⟩ | ⟨-, -, -, rfl⟩ | ⟨h1, h4, -, -, rfl⟩ := exec_pndec_cases h
    · exact resultInv_raise _ hres
    · exact resultInv_raise _ hres
    · obtain ⟨hrange, -⟩ := pndecResultRange s _ _ h rfl rfl
      exact resultInv_complete hzero (ofNat_mem_legalLengths_of_packetNumber h1 h4) (.inl rfl) hrange

/-- A command word leaves the invariant, an illegal one by its error completion (60_exceptions.md R107). -/
theorem issueCommand_resultInv {w : Byte} (hinv : ResultInv s) (h : issueCommand w s = .next t) : ResultInv t := by
  obtain ⟨i, -, hexec⟩ | rfl := issueCommand_eq_next h
  · exact exec_resultInv hinv.res_range hexec
  · exact resultInv_raise _ hinv.res_range

/-- The invariant speaks of the four result registers only. -/
theorem ResultInv.congr (hinv : ResultInv s) (hstatus : t.status = s.status) (holen : t.olen = s.olen)
    (hconsumed : t.consumed = s.consumed) (hres : t.res = s.res) : ResultInv t := by
  obtain ⟨hlegal, hfields, hclears, holegal, hclegal, hone, hrange⟩ := hinv
  constructor <;> simpa only [hstatus, holen, hconsumed, hres]

end

@[simp] theorem storeRegister_olen (r : Reg) (v : BitVec r.width) (s : State) :
    (storeRegister r v s).olen = s.olen := by
  cases r <;> rfl

@[simp] theorem storeRegister_consumed (r : Reg) (v : BitVec r.width) (s : State) :
    (storeRegister r v s).consumed = s.consumed := by
  cases r <;> rfl

@[simp] theorem storeRegister_res (r : Reg) (v : BitVec r.width) (s : State) :
    (storeRegister r v s).res = s.res := by
  cases r <;> rfl

/-- The reset values are those of a success that reports no length (10_state.md R29). -/
theorem resetRegisters_resultInv (s : State) : ResultInv (resetRegisters s) :=
  resultInv_complete (o := 0) (c := 0) (s := resetRegisters s) (by decide) (by decide) (.inl rfl)
    (by rw [resetRegisters_res]; decide)

/-- Every action of the host keeps the invariant: the host cannot write a result register (10_state.md R24). -/
theorem perform_resultInv {a : HostAction} {s t : State} (hinv : ResultInv s) (h : perform a s = .next t) :
    ResultInv t := by
  obtain ⟨w, -, hissue⟩ | ⟨r, v, -, -, rfl⟩ | ⟨r, -, rfl⟩ | ⟨-, rfl⟩ := perform_cases h
  · exact issueCommand_resultInv hinv hissue
  · exact hinv.congr (storeRegister_status r v s) (storeRegister_olen r v s) (storeRegister_consumed r v s)
      (storeRegister_res r v s)
  · exact hinv.congr rfl rfl rfl rfl
  · exact resetRegisters_resultInv s

/-- Settles O47: a step is idle or an action of the host, and every action keeps the invariant. -/
theorem stepKeepsTheResultInvariant : Obligations.StepKeepsTheResultInvariant := by
  unfold Obligations.StepKeepsTheResultInvariant
  intro s t hinv h
  cases hpending : s.pending with
  | nil =>
    rw [step_of_nil hpending] at h
    cases h
    exact hinv
  | cons a rest =>
    rw [step_of_cons hpending] at h
    exact perform_resultInv (hinv.congr (t := { s with pending := rest }) rfl rfl rfl rfl) h

/-- Settles O48: the starting state is what a reset makes of it. -/
theorem resetMeetsTheResultInvariant : Obligations.ResetMeetsTheResultInvariant := by
  unfold Obligations.ResetMeetsTheResultInvariant
  exact resetRegisters_resultInv State.reset

end Sys2Proof.Machine
end

section
/-! PROOFS. The host's side of the port: register numbers, the order of writes, and the pseudo-instructions
(10_state.md R11; 30_encoding.md R52, R53). -/

namespace Sys2Proof.Machine

/-! ### Registers as the host names and writes them -/

@[simp] theorem Reg.ofNumber_number (r : Reg) : Reg.ofNumber r.number = r := by
  cases r <;> rfl

/-- Settles O43: the numbers and the registers are inverse to each other. -/
theorem registerNumbersAreHandles : Obligations.RegisterNumbersAreHandles := by
  unfold Obligations.RegisterNumbersAreHandles
  exact ⟨rfl, Reg.number_ofNumber, Reg.ofNumber_number⟩

/-- Stores to two registers commute: one of them stores nothing, or they write different fields (10_state.md R23). -/
theorem storeRegister_comm {r r' : Reg} (hne : r ≠ r') (v : BitVec r.width) (v' : BitVec r'.width) (s : State) :
    storeRegister r v (storeRegister r' v' s) = storeRegister r' v' (storeRegister r v s) := by
  by_cases hr : r.number < 2 ∨ 6 < r.number
  · rw [storeRegister_eq_self hr, storeRegister_eq_self hr]
  by_cases hr' : r'.number < 2 ∨ 6 < r'.number
  · rw [storeRegister_eq_self hr', storeRegister_eq_self hr']
  cases r with
  | val | ref | len | rem | din =>
    cases r' with
    | val | ref | len | rem | din => simp [storeRegister] at hne ⊢
    | _ => simp [Reg.number] at hr'
  | _ => simp [Reg.number] at hr

/-- Settles O44: a write to a register other than `CMD` is its store, and the stores commute. -/
theorem hostWritesCommute : Obligations.HostWritesCommute := by
  unfold Obligations.HostWritesCommute
  refine ⟨fun r r' v v' s hr hr' hne => ?_, fun r r' v v' s hne => storeRegister_comm hne v v' s⟩
  refine ⟨_, _, _, perform_write_of_ne_cmd hr v s, perform_write_of_ne_cmd hr' v' _,
    perform_write_of_ne_cmd hr' v' s, ?_⟩
  rw [perform_write_of_ne_cmd hr, storeRegister_comm hne]

/-! ### Running the host's actions from the front of its list (30_encoding.md R53) -/

section
variable {s : State} {rest : List HostAction}

/-- A run goes through a write of an operand (10_state.md R23). -/
theorem run_of_write {r : Reg} {v : BitVec r.width} (k : Nat) (hr : r ≠ .cmd) (h : s.pending = .write r v :: rest) :
    core.run (k + 1) s = core.run k (storeRegister r v { s with pending := rest }) :=
  run_of_step k ((step_of_cons h).trans (perform_write_of_ne_cmd hr v _))

/-- A run of one step that issues a command is the command (10_state.md R12). -/
theorem run_of_cmd {i : Instr} (h : s.pending = cmd i :: rest) :
    core.run 1 s = exec i { s with pending := rest } := by
  obtain ⟨t, ht⟩ := exec_completes i { s with pending := rest }
  rw [run_of_step 0 ((step_of_cmd h).trans ht), run_zero, ht]
  rfl

end

/-- A window given as bytes holds them in wire order, zero beyond their end (30_encoding.md R52). -/
theorem lane_windowOf (bytes : List Byte) {j : Nat} (hj : j < 8) : lane (windowOf bytes) j = bytes.getD j 0 := by
  simpa [windowOf] using foldl_range_setLane 8 0 j (fun j => bytes.getD j 0) 0 (by decide) hj

/-- Settles O45: each list is operand writes, then the command; the window of the bytes is the one with their lanes. -/
theorem pseudoInstructionsRunTheirCommand : Obligations.PseudoInstructionsRunTheirCommand := by
  unfold Obligations.PseudoInstructionsRunTheirCommand
  intro s rest v ref bytes r len d hlanes
  obtain rfl : d = windowOf bytes := window_ext fun j hj => by rw [hlanes j hj, lane_windowOf bytes hj]
  refine ⟨fun h => ?_, fun h => ?_, fun h => ?_, fun h => ?_, fun h => ?_, fun h => ?_⟩
  · rw [run_of_write 1 (by decide) h, run_of_cmd rfl]
    rfl
  · rw [run_of_write 1 (by decide) h, run_of_cmd rfl]
    rfl
  · exact run_of_cmd h
  · rw [run_of_write 2 (by decide) h, run_of_write 1 (by decide) rfl, run_of_cmd rfl]
    rfl
  · rw [run_of_write 2 (by decide) h, run_of_write 1 (by decide) rfl, run_of_cmd rfl]
    rfl
  · rw [run_of_write 3 (by decide) h, run_of_write 2 (by decide) rfl, run_of_write 1 (by decide) rfl, run_of_cmd rfl]
    rfl

/-! ### The commands right after reset (70_reset_and_hazards.md R120) -/

/-- Settles O40: the six commands evaluated at the reset values. -/
theorem firstCommandAfterReset : Obligations.FirstCommandAfterReset := by
  unfold Obligations.FirstCommandAfterReset
  exact ⟨rfl, rfl, rfl, rfl, rfl, rfl⟩

end Sys2Proof.Machine
end
